-- ==== Sys2Proof/Word.lean ====
section
/-!
DEFINITION. The bit-vector types of the WTLM frame decoder.

A value of width N is an unsigned vector with bit 0 least significant, and `{a, b}` puts the leftmost operand
highest (00_scope.md R9): `BitVec N` and `++`.
-/

namespace Sys2Proof

/-- A byte of the rebuilt frame (R42) or of a checksum's byte sequence (R65). -/
abbrev Byte := BitVec 8

/-- A hex digit of the rebuilt frame, 0 to 15 (R12). -/
abbrev Digit := BitVec 4

/-- The command word on port `cmd` (R13, R50). -/
abbrev Cmd := BitVec 3

/-- The capture register `cap[67:0]`; its width is `CAP_BITS` = 68 (R8, R17). -/
abbrev Capture := BitVec 68

/-- The bit counter `cnt[7:0]` (R18). -/
abbrev Count := BitVec 8

/-- The rebuilt frame `F[71:0]`: `FRAME_BITS` = 72, `FRAME_BYTES` = 9, `FRAME_DIGITS` = 18 (R8, R41). -/
abbrev Frame := BitVec 72

end Sys2Proof
end

