-- ==== Sys2Proof/Machine/Operands.lean ====
section
/-!
DEFINITION. The operand forms: the fields of a command word, and the positions of bits, digits and bytes from which
DECODE takes its operands (20_memory.md section 2).
-/

namespace Sys2Proof.Machine

/-- `op = cmd[2:1]` (30_encoding.md R50). -/
def cmdOp (w : Cmd) : BitVec 2 := w.extractLsb' 1 2

/-- `din = cmd[0]`, the operand of SHIFT, with no extension (R50, R54). -/
def cmdDin (w : Cmd) : Bool := w.getLsbD 0

/-- A command word from its two fields (R50). -/
def cmdWord (op : BitVec 2) (din : Bool) : Cmd := op ++ BitVec.ofBool din

/-- `rev4(x) = {x[0], x[1], x[2], x[3]}` (00_scope.md R9). -/
def rev4 (x : Digit) : Digit :=
  BitVec.ofBool (x.getLsbD 0) ++ BitVec.ofBool (x.getLsbD 1) ++ BitVec.ofBool (x.getLsbD 2) ++
    BitVec.ofBool (x.getLsbD 3)

/-- `rev4` of each of `n` nibbles, every nibble staying at its place (41_frame_decode.md R78). -/
def revNibbles : (n : Nat) → BitVec (4 * n) → BitVec (4 * n)
  | 0, x => x
  | n + 1, x => revNibbles n (x.extractLsb' 4 (4 * n)) ++ rev4 (x.extractLsb' 0 4)

/-- The digit a nibble carries, its bits in arrival order: the first has weight 1 (20_memory.md R38). -/
def nibbleDigit (b0 b1 b2 b3 : Bool) : Digit :=
  BitVec.ofBool b3 ++ BitVec.ofBool b2 ++ BitVec.ofBool b1 ++ BitVec.ofBool b0

/-- The bits of a digit as the transmitter sends them, least significant first (R38, 30_encoding.md R63). -/
def digitBits (h : Digit) : List Bool := [h.getLsbD 0, h.getLsbD 1, h.getLsbD 2, h.getLsbD 3]

/-- `Digit(F, k) = F[71-4k : 68-4k]` (R41). -/
def digit (F : Frame) (k : Fin 18) : Digit := F.extractLsb' (68 - 4 * k.val) 4

/-- `Byte(F, j) = F[71-8j : 64-8j]` (R42). -/
def byte (F : Frame) (j : Fin 9) : Byte := F.extractLsb' (64 - 8 * j.val) 8

/-- Two digit positions in list order, the first listed most significant (R43). -/
def digits2 (F : Frame) (p1 p2 : Fin 18) : BitVec 8 := digit F p1 ++ digit F p2

/-- Three digit positions in list order, the first listed most significant (R43). -/
def digits3 (F : Frame) (p1 p2 p3 : Fin 18) : BitVec 12 := digit F p1 ++ digit F p2 ++ digit F p3

/-- The 18 digits of a frame, digit 0 first: the source's frame string (R41, 41_frame_decode.md R77). -/
def frameDigits (F : Frame) : List Digit := (List.finRange 18).map (digit F)

/-- The 9 bytes of a frame, byte 0 first (R40, R42). -/
def frameBytes (F : Frame) : List Byte := (List.finRange 9).map (byte F)

end Sys2Proof.Machine
end

