-- ==== Sys2Proof/Syntax.lean ====
section
/-!
DEFINITION. The commands of the block: one constructor per row of spec/opcode_table.json.
-/

namespace Sys2Proof

/-- A command (30_encoding.md R51). Only SHIFT has an operand, the 1-bit `din`, used as it stands (R54). -/
inductive Instr where
  /-- NOP (42_commands.md R97). -/
  | nop
  /-- SHIFT d (R98). -/
  | shift (din : Bool)
  /-- CLEAR (R99). -/
  | clear
  /-- DECODE (R100). -/
  | decode
deriving DecidableEq, Repr

end Sys2Proof
end

