-- ==== Sys2Proof/WellFormed.lean ====
section
/-!
DEFINITION. What is well formed, and the names under which ill-formed input is refused.

Every command is well formed: the command space has no reserved and no illegal word (30_encoding.md R53), and the one
operand is a bit (R54). The checks that can fail concern input types wider than the hardware's own.
-/

namespace Sys2Proof

/-- Every command of the table is well formed (R53, R54). -/
def Instr.wellFormed : Instr → Bool
  | .nop => true
  | .shift _ => true
  | .clear => true
  | .decode => true

/-- Why input of a wider type than the hardware's is refused. No step of the machine gives one of these: its ports
cannot carry such input. All are safe: the model gives such input no meaning. -/
inductive InputRefusal where
  /-- `decodeWord`: the number does not fit the 3 bits of a command word (R50; log 7). -/
  | wordTooWide
  /-- `bitsOfSymbols`: a received element is neither 0 nor 1 (41_frame_decode.md R94). -/
  | nonBinarySymbol
  /-- `xorCheck`: a byte sequence of fewer than two bytes (40_checksum.md R67). -/
  | shortByteSequence
deriving DecidableEq, Repr

/-- A number is a command word when it has 3 bits (R50: "There is no longer or shorter form and no prefix"). -/
def isCommandWord (w : Nat) : Bool := decide (w < 8)

/-- A list of numbers is a received bit sequence when each element is 0 or 1 (R94). -/
def isBitSequence (symbols : List Nat) : Bool := symbols.all fun n => decide (n < 2)

/-- `XorCheck` is defined for two bytes or more (R67). -/
def isChecksumInput (bytes : List Byte) : Bool := decide (2 ≤ bytes.length)

end Sys2Proof
end

