-- ==== Sys2Proof/Decode.lean ====
section
/-!
DEFINITION. Decoding and encoding of the command word (30_encoding.md section 1).
-/

namespace Sys2Proof

open Sys2Proof.Machine

/-- The command a 3-bit word names (30_encoding.md R51). Total: every word is legal (R53), and `din` is read by SHIFT
only (R52). -/
def decodeCmd (w : Cmd) : Instr :=
  match (cmdOp w).toNat with
  | 0 => .nop
  | 1 => .shift (cmdDin w)
  | 2 => .clear
  | _ => .decode

/-- The command a number names. A number that is no 3-bit word is refused by name (DESIGN CHOICE, safe: log 7). -/
def decodeWord (w : Nat) : Except InputRefusal Instr :=
  if isCommandWord w then .ok (decodeCmd (BitVec.ofNat 3 w)) else .error .wordTooWide

/-- The word an assembler emits: the even word for NOP, CLEAR and DECODE (R62). -/
def encode : Instr → Cmd
  | .nop => cmdWord 0b00#2 false
  | .shift d => cmdWord 0b01#2 d
  | .clear => cmdWord 0b10#2 false
  | .decode => cmdWord 0b11#2 false

/-- The host's question: the instruction read from the bits `w`, numbered as spec/opcode_table.json numbers them. A
command is one 3-bit word, so `nbits` (the row's bits in whole bytes) plays no part (log 7). -/
def decodeTableWord (_nbits w : Nat) : Option Instr :=
  match decodeWord w with
  | .ok i => some i
  | .error _ => none

end Sys2Proof
end

