-- ==== Sys2Proof/Machine/Checksum.lean ====
section
/-!
DEFINITION. The XOR checksum validator (40_checksum.md).
-/

namespace Sys2Proof.Machine

open Sys2Proof

/-- `XorFold(B)` (R65). -/
def xorFold (B : List Byte) : Byte := B.foldl (fun acc b => acc ^^^ b) 0#8

/-- `XorCheck(B)`: the last byte against the fold of all before it (R66). Fewer than two bytes are refused by name, with
no value (R67). -/
def xorCheck (B : List Byte) : Except InputRefusal Bool :=
  if isChecksumInput B then .ok (xorFold B.dropLast == B.getLastD 0#8) else .error .shortByteSequence

/-- `chk_calc`: the XOR tree over frame bytes 0 to 7 (R70). -/
def chkCalc (F : Frame) : Byte :=
  byte F 0 ^^^ byte F 1 ^^^ byte F 2 ^^^ byte F 3 ^^^ byte F 4 ^^^ byte F 5 ^^^ byte F 6 ^^^ byte F 7

end Sys2Proof.Machine
end

