-- ==== Sys2Proof/Config.lean ====
section
/-!
DEFINITION. The build-time parameters of the block (00_scope.md R6, R7; 10_state.md R35).

They are fixed for the block's lifetime. The host's `step` takes no parameter, so the state carries them in its field
`build`, which no step changes (DESIGN CHOICE, safe: log 1).
-/

namespace Sys2Proof

/-- `VARIANT`: how many bits a transmission carries and how much of the sync byte is implied (R6). -/
inductive Variant where
  | v68
  | v64
deriving DecidableEq, Repr

/-- `AUX_FIELD_MAP`: the digit positions of batteryState, intervalFlag and rainFlag (R7). The register widths of R20
make it one position, one position, and two with the most significant first (DEDUCED, safe: log 4). -/
structure AuxFieldMap where
  batt : Fin 18
  intv : Fin 18
  rainHigh : Fin 18
  rainLow : Fin 18
deriving DecidableEq, Repr

/-- The two build-time parameters (R35). -/
structure Build where
  variant : Variant
  aux : AuxFieldMap
deriving DecidableEq, Repr

end Sys2Proof
end

