-- ==== Sys2Proof/Machine/Constants.lean ====
section
/-!
DEFINITION. The named constants of 00_scope.md R8 and the defaults of R7.

The source's literals are unaudited (91_not_in_source.md N2), so each stands here once (UNVERIFIED, unsafe: log 9).
The sizes `FRAME_DIGITS`, `FRAME_BYTES`, `FRAME_BITS` and `CAP_BITS` are the widths of Word.lean's types.
-/

namespace Sys2Proof.Machine

/-- `SYNC_VALUE` (R8). -/
def syncValue : Byte := 0xAF#8

/-- `LEN_V68` (R8). -/
def lenV68 : Nat := 68

/-- `LEN_V64` (R8). -/
def lenV64 : Nat := 64

/-- `CNT_MAX`, at which the bit counter saturates (R8, R18). -/
def cntMax : Count := 255#8

/-- The digit implied under `V68` (41_frame_decode.md R76). -/
def prefixV68 : Digit := 0xA#4

/-- The two digits implied under `V64` (R76). -/
def prefixV64 : BitVec 8 := 0xAF#8

/-- `TEMP_OFFSET` (R8), at the width of `res_temp_dc`. -/
def tempOffset : BitVec 13 := 400#13

/-- `TEMP_SCALE` (R8); only the consumer's view divides by it. -/
def tempScale : Nat := 10

/-- `BATT_OK` (R8); used only by consumers. -/
def battOk : BitVec 8 := 8#8

/-- `GAP_SENTINEL` (R8); used only by consumers. -/
def gapSentinel : BitVec 16 := 0x5DC#16

/-- The default `AUX_FIELD_MAP`: batt 9, intv 11, rain 14 and 15 (R7). The source does not place these fields
(92_eei_decisions.md D8; unsafe: log 3). -/
def defaultAux : AuxFieldMap := { batt := 9, intv := 11, rainHigh := 14, rainLow := 15 }

end Sys2Proof.Machine
end

