-- ==== Sys2Proof/Machine/State.lean ====
section
/-!
DEFINITION. The state of the block as plain data (10_state.md), its faults and refusals, and the state after reset.

One-bit registers and ports are `Bool`, `true` for 1 (DESIGN CHOICE, safe: log 8).
-/

namespace Sys2Proof.Machine

open Sys2Proof

/-- What stops the machine. The block itself has no fault: "No condition in the WFD traps, stalls, halts or changes
control" (60_exceptions.md R109). -/
inductive Fault where
  /-- Raised by `step` alone, when no sample of the input ports is left: no rising edge of `clk` comes, so no step is
  taken (10_state.md R14). Safe: the model stops where nothing happens (DESIGN CHOICE, log 5). -/
  | noClockEdge
deriving DecidableEq, Repr

/-- What the model gives no meaning. The block never refuses a command (70_reset_and_hazards.md R136). -/
inductive Refusal where
  /-- Raised by `exec` for a command that has no meaning yet. Safe. No arm raises it: all four commands have one. -/
  | notModelled (mnemonic : String)
deriving DecidableEq, Repr

/-- The levels of the input ports at one rising edge of `clk` (R13, R14). -/
structure PortSample where
  rst : Bool
  cmd : Cmd
deriving DecidableEq, Repr

/-- The result registers other than `res_have` and `res_strobe`: `res_err_len` and the data registers (R20, R95). -/
structure ResultRecord where
  /-- `res_err_len` (R23). -/
  errLen : Bool
  /-- `res_frame[71:0]` (R24). -/
  frame : Frame
  /-- `res_sync[7:0]` (R25). -/
  sync : Byte
  /-- `res_sync_ok` (R25). -/
  syncOk : Bool
  /-- `res_id[7:0]` (R26). -/
  id : Byte
  /-- `res_type[7:0]` (R27). -/
  msgType : Byte
  /-- `res_gap[11:0]` (R28). -/
  gap : BitVec 12
  /-- `res_batt[3:0]` (R29). -/
  batt : BitVec 4
  /-- `res_temp_raw[11:0]` (R30). -/
  tempRaw : BitVec 12
  /-- `res_temp_dc[12:0]`, signed two's complement (R30). -/
  tempDc : BitVec 13
  /-- `res_intv[3:0]` (R31). -/
  intv : BitVec 4
  /-- `res_rain[7:0]` (R31). -/
  rain : BitVec 8
  /-- `res_chk[7:0]` (R32). -/
  chk : Byte
  /-- `res_chk_calc[7:0]` (R32). -/
  chkCalc : Byte
  /-- `res_chk_ok` (R32). -/
  chkOk : Bool
deriving DecidableEq, Repr

/-- Every register of the record at its reset value (R36). -/
def ResultRecord.zero : ResultRecord :=
  { errLen := false, frame := 0#72, sync := 0#8, syncOk := false, id := 0#8, msgType := 0#8, gap := 0#12,
    batt := 0#4, tempRaw := 0#12, tempDc := 0#13, intv := 0#4, rain := 0#8, chk := 0#8, chkCalc := 0#8,
    chkOk := false }

/-- The state: the named registers of R17, R18 and R20, and the model's own two fields. -/
structure State where
  /-- `cap[67:0]`, newest bit in bit 0 (R17). -/
  cap : Capture
  /-- `cnt[7:0]` (R18). -/
  cnt : Count
  /-- `res_have` (R21). -/
  resHave : Bool
  /-- `res_strobe` (R22). -/
  resStrobe : Bool
  /-- `res_err_len` and the data registers (R23 to R32). -/
  res : ResultRecord
  /-- The MODEL's own field: the build-time parameters, which no step changes (R35; log 1). -/
  build : Build
  /-- The MODEL's own field: the levels of `rst` and `cmd` at the coming edges, next edge first (R13, R14; log 5). -/
  inputs : List PortSample
deriving DecidableEq, Repr

/-- The block right after a reset step (R36, R125). The parameters have no reset value: `V68` is the variant the
spec's examples use (R6) and `defaultAux` the default of R7 (DESIGN CHOICE, unsafe: log 2, log 3). No port sample is
waiting (log 5). -/
def State.reset : State :=
  { cap := 0#68, cnt := 0#8, resHave := false, resStrobe := false, res := ResultRecord.zero,
    build := { variant := .v68, aux := defaultAux }, inputs := [] }

end Sys2Proof.Machine
end

