-- ==== Sys2Proof/Machine/Flags.lean ====
section
/-!
DEFINITION. The flags of a decoded frame and the result status code.
-/

namespace Sys2Proof.Machine

open Sys2Proof

/-- `syncOk = (Byte(F, 0) == 8'hAF)` (41_frame_decode.md R80). -/
def syncOk (F : Frame) : Bool := byte F 0 == syncValue

/-- `checksumValid = (chk_calc == checksum)` (R89, 40_checksum.md R70). -/
def chkOk (F : Frame) : Bool := chkCalc F == byte F 8

/-- The names of the values of `res_code` (10_state.md R33). -/
inductive ResCode where
  | none
  | ok
  | chkbad
  | lenerr
deriving DecidableEq, Repr

/-- The value on the port `res_code[1:0]` (R33). -/
def resCodeBits : ResCode → BitVec 2
  | .none => 0#2
  | .ok => 1#2
  | .chkbad => 2#2
  | .lenerr => 3#2

/-- `res_code`, combinational from the result registers; `res_sync_ok` does not enter it (R33). -/
def resCode (s : State) : ResCode :=
  if s.resHave then
    if s.res.errLen then .lenerr else if s.res.chkOk then .ok else .chkbad
  else .none

end Sys2Proof.Machine
end

