-- ==== Sys2Proof/Machine/FrameDecode.lean ====
section
/-!
DEFINITION. The frame decode function (41_frame_decode.md): on a received bit list (`decodeFn`, R71), and as the block
computes it from the capture register (`decodeCapture`, R78). R96 says that the two agree.
-/

namespace Sys2Proof.Machine

open Sys2Proof

/-- The result of `DecodeFn`: the source's `InvalidLength`, or a rebuilt frame (R71). -/
inductive DecodeResult where
  | lenErr
  | frame (F : Frame)
deriving DecidableEq, Repr

/-- The trim of `V64`: "while length > 64, drop the first bit" (R74). -/
def trim64 : List Bool → List Bool
  | [] => []
  | b :: t => if lenV64 < t.length + 1 then trim64 t else b :: t

/-- The digits of the received nibbles, "in sequence order" (R75). -/
def nibbleDigits : List Bool → List Digit
  | b0 :: b1 :: b2 :: b3 :: rest => nibbleDigit b0 b1 b2 b3 :: nibbleDigits rest
  | _ => []

/-- The implied leading digits (R76). -/
def prefixDigits : Variant → List Digit
  | .v68 => [prefixV68]
  | .v64 => [prefixV64.extractLsb' 4 4, prefixV64.extractLsb' 0 4]

/-- The frame vector of a digit string, digit 0 first (R77, R78): each further digit is appended at the low end. -/
def frameOfDigits (ds : List Digit) : Frame := ds.foldl (fun F d => (F <<< 4) ||| d.setWidth 72) 0#72

/-- `DecodeFn(VARIANT, s)` (R71 to R78). -/
def decodeFn (v : Variant) (s : List Bool) : DecodeResult :=
  match v with
  | .v68 =>
    if s.length = lenV68 then .frame (frameOfDigits (prefixDigits .v68 ++ nibbleDigits s)) else .lenErr
  | .v64 =>
    if s.length < lenV64 then .lenErr else .frame (frameOfDigits (prefixDigits .v64 ++ nibbleDigits (trim64 s)))

/-- Received elements of a wider type: an element that is neither 0 nor 1 is refused, never mapped to a bit (R94). -/
def bitsOfSymbols (symbols : List Nat) : Except InputRefusal (List Bool) :=
  if isBitSequence symbols then .ok (symbols.map fun n => n == 1) else .error .nonBinarySymbol

/-- `airGapCm = {Digit 7, Digit 6, Digit 8}` (R83). -/
def airGap (F : Frame) : BitVec 12 := digits3 F 7 6 8

/-- `tempRaw = {Digit 13, Digit 12, Digit 10}` (R84). -/
def tempRaw (F : Frame) : BitVec 12 := digits3 F 13 12 10

/-- `res_temp_dc`: the raw code less 400, in 13 bits (R85). -/
def tempDc (F : Frame) : BitVec 13 := (tempRaw F).setWidth 13 - tempOffset

/-- The record of a decoded frame (R79 to R89). -/
def frameRecord (aux : AuxFieldMap) (F : Frame) : ResultRecord :=
  { errLen := false
    frame := F
    sync := byte F 0
    syncOk := syncOk F
    id := byte F 1
    msgType := byte F 2
    gap := airGap F
    batt := digit F aux.batt
    tempRaw := tempRaw F
    tempDc := tempDc F
    intv := digit F aux.intv
    rain := digits2 F aux.rainHigh aux.rainLow
    chk := byte F 8
    chkCalc := chkCalc F
    chkOk := chkOk F }

/-- The record of a length error: `res_err_len` is 1 and every data register 0 (R95). -/
def lenErrRecord : ResultRecord := { ResultRecord.zero with errLen := true }

/-- The record a result publishes (R71, R95). -/
def recordOf (aux : AuxFieldMap) : DecodeResult → ResultRecord
  | .lenErr => lenErrRecord
  | .frame F => frameRecord aux F

/-- The length test on the bit counter (R72, R73, R96). -/
def lengthOk (v : Variant) (cnt : Count) : Bool :=
  match v with
  | .v68 => decide (cnt.toNat = lenV68)
  | .v64 => decide (lenV64 ≤ cnt.toNat)

/-- The frame vector from the capture register (R78). -/
def rebuiltFrame (v : Variant) (cap : Capture) : Frame :=
  match v with
  | .v68 => prefixV68 ++ revNibbles 17 cap
  | .v64 => prefixV64 ++ revNibbles 16 (cap.extractLsb' 0 64)

/-- What a DECODE step publishes, from the capture state and the parameters alone (42_commands.md R100). -/
def decodeCapture (b : Build) (cap : Capture) (cnt : Count) : ResultRecord :=
  if lengthOk b.variant cnt then recordOf b.aux (.frame (rebuiltFrame b.variant cap)) else recordOf b.aux .lenErr

end Sys2Proof.Machine
end

