-- ==== Sys2Proof/Machine/Ops.lean ====
section
/-!
DEFINITION. The named operations on the state that the commands and the reset step share, the output ports, and taking
a sample of the input ports.

The block takes no exception and returns from none (60_exceptions.md R117), so no operation for that stands here. Each
operation reads the state before the step, and its writes take effect together (00_scope.md R10).
-/

namespace Sys2Proof.Machine

open Sys2Proof

/-- `res_strobe <- 0`, which every command but DECODE does (10_state.md R22). -/
def clearStrobe (s : State) : State := { s with resStrobe := false }

/-- `cap <- {cap[66:0], d}` (42_commands.md R98). -/
def shiftedCap (cap : Capture) (d : Bool) : Capture := cap.extractLsb' 0 67 ++ BitVec.ofBool d

/-- `cnt <- (cnt == 255) ? 255 : cnt + 1` (R98, 10_state.md R18). -/
def nextCnt (cnt : Count) : Count := if cnt = cntMax then cntMax else cnt + 1#8

/-- Take in one received bit (R98). -/
def captureBit (d : Bool) (s : State) : State := { s with cap := shiftedCap s.cap d, cnt := nextCnt s.cnt }

/-- Empty the capture (R99, R100). -/
def emptyCapture (s : State) : State := { s with cap := 0#68, cnt := 0#8 }

/-- Publish a result record, replacing the last one in full (R100). -/
def publish (r : ResultRecord) (s : State) : State := { s with resHave := true, resStrobe := true, res := r }

/-- The reset step's writes (70_reset_and_hazards.md R125). The parameters are not state (R35) and the waiting samples
are outside the block, so it keeps both. -/
def resetBlock (s : State) : State :=
  { s with cap := 0#68, cnt := 0#8, resHave := false, resStrobe := false, res := ResultRecord.zero }

/-- The port levels at the next rising edge of `clk`, and the state that waits for the edge after it (10_state.md R14).
None when no edge comes (log 5). -/
def takeSample (s : State) : Option (PortSample × State) :=
  match s.inputs with
  | [] => none
  | p :: rest => some (p, { s with inputs := rest })

/-- Put a command word on the ports for the very next edge, with `rst = 0`, before every waiting sample. A number that
is no command word cannot stand on three wires: then no edge is left (log 7). -/
def presentWord (s : State) (w : Nat) : State :=
  if isCommandWord w then { s with inputs := { rst := false, cmd := BitVec.ofNat 3 w } :: s.inputs }
  else { s with inputs := [] }

/-- The output ports: the result registers, each driven straight from its register, and `res_code` (R13). No port shows
`cap` or `cnt`. -/
structure OutputPorts where
  resHave : Bool
  resStrobe : Bool
  res : ResultRecord
  resCode : BitVec 2
deriving DecidableEq, Repr

/-- The levels of the output ports in a state (R13, R33). -/
def outputs (s : State) : OutputPorts :=
  { resHave := s.resHave, resStrobe := s.resStrobe, res := s.res, resCode := resCodeBits (resCode s) }

end Sys2Proof.Machine
end

