-- ==== Sys2Proof/Machine/Commands.lean ====
section
/-!
DEFINITION. The meanings of the four commands (42_commands.md R97 to R100). Each is one step; none has an exception.
-/

namespace Sys2Proof.Machine

open Sys2Proof

/-- NOP (R97): only `res_strobe` changes. -/
def execNop (s : State) : Host.Outcome State Fault Refusal := .next (clearStrobe s)

/-- SHIFT d (R98): take in one received bit. -/
def execShift (d : Bool) (s : State) : Host.Outcome State Fault Refusal := .next (clearStrobe (captureBit d s))

/-- CLEAR (R99): empty the capture and keep the result record. -/
def execClear (s : State) : Host.Outcome State Fault Refusal := .next (clearStrobe (emptyCapture s))

/-- DECODE (R100): publish the decoded record and empty the capture. -/
def execDecode (s : State) : Host.Outcome State Fault Refusal :=
  .next (emptyCapture (publish (decodeCapture s.build s.cap s.cnt) s))

end Sys2Proof.Machine
end

