-- ==== Sys2Proof/Machine/ClockEdge.lean ====
section
/-!
DEFINITION. One rising edge of `clk` (10_state.md R14).
-/

namespace Sys2Proof.Machine

open Sys2Proof

/-- One step under given port levels: the reset of 70_reset_and_hazards.md R125 when `rst = 1`, which ignores `cmd`;
otherwise the command on `cmd` (R14, R115). -/
def clockEdge (p : PortSample) (s : State) : Host.Outcome State Fault Refusal :=
  if p.rst then .next (resetBlock s) else exec (decodeCmd p.cmd) s

end Sys2Proof.Machine
end

