-- ==== Sys2Proof/Machine/Step.lean ====
section
/-!
DEFINITION. The step of the machine: one rising edge with the next sample of the input ports.
-/

namespace Sys2Proof.Machine

open Sys2Proof

/-- One step (10_state.md R14). With no sample left no edge comes (log 5). -/
def step (s : State) : Host.Outcome State Fault Refusal :=
  match takeSample s with
  | none => .fault .noClockEdge
  | some (p, t) => clockEdge p t

/-- The host's loader: `s` with the word `w` on `cmd` and `rst = 0` at the next edge (log 5). -/
def State.withFetchWord (s : State) (_nbits w : Nat) : State := presentWord s w

end Sys2Proof.Machine
end

