-- ==== Sys2Proof/Machine/Program.lean ====
section
/-!
DEFINITION. The assembler syntax and the pseudo-instructions (30_encoding.md section 3), the program encoding (R64),
and the wire layout of a transmission (R55).
-/

namespace Sys2Proof.Machine

open Sys2Proof

/-- A line of a program (R62, R63). -/
inductive Line where
  /-- One command. -/
  | command (i : Instr)
  /-- `RESET`: one step with `rst = 1` (R62). -/
  | reset
  /-- `BITS b0 ... bk`. -/
  | bits (bs : List Bool)
  /-- `DIGITS h0 ... hm`. -/
  | digits (hs : List Digit)
  /-- `FRAME68 <17 hex digits>`. -/
  | frame68 (hs : Vector Digit 17)
  /-- `FRAME64 <16 hex digits>`. -/
  | frame64 (hs : Vector Digit 16)
deriving DecidableEq, Repr

/-- The bits of a digit string in order of transmission (R55, R63). -/
def digitsBits (hs : List Digit) : List Bool := hs.flatMap digitBits

/-- One SHIFT per bit, in order (R63). -/
def shifts (bs : List Bool) : List Instr := bs.map Instr.shift

/-- The commands a frame line expands to: CLEAR, DIGITS, DECODE (R63). -/
def frameCommands (hs : List Digit) : List Instr := [.clear] ++ shifts (digitsBits hs) ++ [.decode]

/-- The port levels of a command step (R14, R62). -/
def commandSample (i : Instr) : PortSample := { rst := false, cmd := encode i }

/-- The port levels of a `RESET` line. Its `cmd` is ignored; the model puts zeros there (DESIGN CHOICE, safe: log 12). -/
def resetSample : PortSample := { rst := true, cmd := 0#3 }

/-- The steps of one line (R62, R63). -/
def lineSamples : Line → List PortSample
  | .command i => [commandSample i]
  | .reset => [resetSample]
  | .bits bs => (shifts bs).map commandSample
  | .digits hs => (shifts (digitsBits hs)).map commandSample
  | .frame68 hs => (frameCommands hs.toList).map commandSample
  | .frame64 hs => (frameCommands hs.toList).map commandSample

/-- The steps of a program, in order. -/
def assemble (ls : List Line) : List PortSample := ls.flatMap lineSamples

/-- The command words of a program: `RESET` steps are not in it (95_test_vectors.md section 3, R64). -/
def programWords (ls : List Line) : List Cmd := ((assemble ls).filter fun p => !p.rst).map PortSample.cmd

/-- One octal digit per command word (R64). -/
def octalDigits (ws : List Cmd) : List Char := ws.map fun w => Char.ofNat (48 + w.toNat)

/-- The octal digit string of a program (R64). -/
def octalString (ls : List Line) : String := String.ofList (octalDigits (programWords ls))

/-- The words an octal digit string stands for; any other character is refused as no command word (R50, R64). -/
def wordsOfOctal : List Char → Except InputRefusal (List Cmd)
  | [] => .ok []
  | c :: cs =>
    if c.toNat < 48 ∨ 56 ≤ c.toNat then .error .wordTooWide
    else
      match wordsOfOctal cs with
      | .ok ws => .ok (BitVec.ofNat 3 (c.toNat - 48) :: ws)
      | .error e => .error e

/-- The digits a transmission carries: the frame's digits after the implied prefix (R55). -/
def sentDigits (v : Variant) (F : Frame) : List Digit := (frameDigits F).drop (prefixDigits v).length

/-- The bits of one transmission of a frame, in order (R55). -/
def wireBits (v : Variant) (F : Frame) : List Bool := digitsBits (sentDigits v F)

end Sys2Proof.Machine
end

