-- ==== Sys2Proof/Machine/Telemetry.lean ====
section
/-!
DEFINITION. The consumer's view of the result record: the source's TelemetryFrame, by the "consumer's value" column of
10_state.md R20. The block computes none of it, and no step reads it.
-/

namespace Sys2Proof.Machine

open Sys2Proof

/-- The source's TelemetryFrame, with its field types (R20). The temperature is the exact rational of R30 (log 11). -/
structure TelemetryFrame where
  syncByte : BitVec 8
  deviceId : BitVec 8
  messageType : BitVec 8
  airGapCm : BitVec 16
  batteryState : BitVec 8
  temperatureC : Rat
  intervalFlag : BitVec 8
  rainFlag : BitVec 16
  checksum : BitVec 8
  checksumValid : Bool
deriving DecidableEq, Repr

/-- The record widened to the source's types (R20, R28 to R32). -/
def telemetryOf (r : ResultRecord) : TelemetryFrame :=
  { syncByte := r.sync
    deviceId := r.id
    messageType := r.msgType
    airGapCm := r.gap.setWidth 16
    batteryState := r.batt.setWidth 8
    temperatureC := (r.tempDc.toInt : Rat) / (tempScale : Rat)
    intervalFlag := r.intv.setWidth 8
    rainFlag := r.rain.setWidth 16
    checksum := r.chk
    checksumValid := r.chkOk }

/-- The frame a consumer may read in a state: none while `res_code` is NONE or LENERR, where the data registers are no
frame (93_implementation_defined.md I7). -/
def telemetry (s : State) : Option TelemetryFrame :=
  match resCode s with
  | .none => none
  | .ok => some (telemetryOf s.res)
  | .chkbad => some (telemetryOf s.res)
  | .lenerr => none

end Sys2Proof.Machine
end

