-- ==== Sys2Proof/Safety.lean ====
section
/-!
DEFINITION. The terms in which claims about runs are made: the bits received since the capture was last emptied, the
capture and result invariants, and the kinds of step.
-/

namespace Sys2Proof.Safety

open Sys2Proof Sys2Proof.Machine

/-- The bits received since the capture was last emptied, after one more step: a reset, CLEAR or DECODE empties, SHIFT
appends, NOP keeps (10_state.md R19). -/
def receivedAfter (bits : List Bool) (p : PortSample) : List Bool :=
  if p.rst then []
  else
    match decodeCmd p.cmd with
    | .nop => bits
    | .shift d => bits ++ [d]
    | .clear => []
    | .decode => []

/-- The same after a list of steps, from `bits` on. -/
def receivedOver (bits : List Bool) (ps : List PortSample) : List Bool := ps.foldl receivedAfter bits

/-- The capture state holds the received bits `bits`: the capture invariant of R19. -/
def Captured (s : State) (bits : List Bool) : Prop :=
  s.cnt.toNat = min bits.length 255 ∧
    ∀ j, j < 68 →
      s.cap.getLsbD j = if j < bits.length then bits.getD (bits.length - 1 - j) false else false

/-- The result-record invariant: what R23 says of a length error, R34 of a decoded frame and R21 of no result. -/
def RecordInv (s : State) : Prop :=
  (s.res.errLen = true → s.res = lenErrRecord) ∧
    (s.resHave = true → s.res.errLen = false → s.res = frameRecord s.build.aux s.res.frame) ∧
    (s.resHave = false → s.resStrobe = false ∧ s.res = ResultRecord.zero)

/-- `F` is the frame vector of R78 for the capture `cap`: the implied prefix, and every received nibble at its own
place with its four bits reversed. -/
def Rebuilt (v : Variant) (cap : Capture) (F : Frame) : Prop :=
  match v with
  | .v68 => F.extractLsb' 68 4 = 0xA#4 ∧ ∀ m, m < 17 → F.extractLsb' (4 * m) 4 = rev4 (cap.extractLsb' (4 * m) 4)
  | .v64 => F.extractLsb' 64 8 = 0xAF#8 ∧ ∀ m, m < 16 → F.extractLsb' (4 * m) 4 = rev4 (cap.extractLsb' (4 * m) 4)

/-- The length test of 42_commands.md R100. -/
def Accepts (v : Variant) (cnt : Count) : Prop :=
  match v with
  | .v68 => cnt = 68#8
  | .v64 => 64 ≤ cnt.toNat

/-- The XOR of frame bytes 0 to 7 as R100 slices them. -/
def slicedChecksum (F : Frame) : Byte :=
  F.extractLsb' 64 8 ^^^ F.extractLsb' 56 8 ^^^ F.extractLsb' 48 8 ^^^ F.extractLsb' 40 8 ^^^ F.extractLsb' 32 8 ^^^
    F.extractLsb' 24 8 ^^^ F.extractLsb' 16 8 ^^^ F.extractLsb' 8 8

/-- The record R100 writes for an accepted transmission, in the slices of `F` that R100 names; the three fields of
`AUX_FIELD_MAP` are given (`batt`, `intv`, `rain`). -/
def publishedRecord (F : Frame) (batt intv : BitVec 4) (rain : BitVec 8) : ResultRecord :=
  { errLen := false
    frame := F
    sync := F.extractLsb' 64 8
    syncOk := F.extractLsb' 64 8 == 0xAF#8
    id := F.extractLsb' 56 8
    msgType := F.extractLsb' 48 8
    gap := F.extractLsb' 40 4 ++ F.extractLsb' 44 4 ++ F.extractLsb' 36 4
    batt := batt
    tempRaw := F.extractLsb' 16 4 ++ F.extractLsb' 20 4 ++ F.extractLsb' 28 4
    tempDc := (F.extractLsb' 16 4 ++ F.extractLsb' 20 4 ++ F.extractLsb' 28 4).setWidth 13 - 400#13
    intv := intv
    rain := rain
    chk := F.extractLsb' 0 8
    chkCalc := slicedChecksum F
    chkOk := slicedChecksum F == F.extractLsb' 0 8 }

/-- A byte sequence with bit `k` of byte `i` flipped (40_checksum.md R69). -/
def flipBit (B : List Byte) (i k : Nat) : List Byte := B.modify i fun b => b ^^^ (1#8 <<< k)

/-- A sample that makes its step a DECODE. -/
def isDecodeStep (p : PortSample) : Bool := !p.rst && decide (decodeCmd p.cmd = .decode)

/-- A sample whose step leaves the result record alone: a NOP, SHIFT or CLEAR step (R101). -/
def keepsRecord (p : PortSample) : Bool := !p.rst && decide (decodeCmd p.cmd ≠ .decode)

/-- A sample whose step empties the capture: a reset, CLEAR or DECODE step (R19). -/
def empties (p : PortSample) : Bool := p.rst || decide (decodeCmd p.cmd = .clear) || decide (decodeCmd p.cmd = .decode)

/-- A sample whose step is a NOP or a SHIFT: what may stand between the CLEAR and the DECODE of one transmission
(R107). -/
def feeds (p : PortSample) : Bool :=
  !p.rst &&
    match decodeCmd p.cmd with
    | .nop => true
    | .shift _ => true
    | .clear => false
    | .decode => false

/-- `n` steps of the machine that all answer a next state, ending in `t`. -/
def RunsTo (n : Nat) (s t : State) : Prop := Host.Core.run Sys2Proof.core n s = .next t

end Sys2Proof.Safety
end

