-- ==== Sys2Proof/Certificates/Slice0/Obligations.lean ====
section
/-!
DEFINITION. The statements for the provers. Each docstring names the rule of spec/ it formalises, or, where it rests on
an inference the spec marks as its own or on a choice of the model, says so.
-/

open Sys2Proof Sys2Proof.Machine Sys2Proof.Safety

/-! ### Command words -/

/-- 30_encoding.md R51: the eight command words. -/
def Obligations.EachWordDecodesToItsCommand : Prop :=
  decodeCmd 0b000#3 = .nop ∧ decodeCmd 0b001#3 = .nop ∧
    decodeCmd 0b010#3 = .shift false ∧ decodeCmd 0b011#3 = .shift true ∧
    decodeCmd 0b100#3 = .clear ∧ decodeCmd 0b101#3 = .clear ∧
    decodeCmd 0b110#3 = .decode ∧ decodeCmd 0b111#3 = .decode

/-- Decoding an encoded command gives it back, and encoding what a word decodes to gives the word, with its don't-care
bit cleared. Derived from R51, R52 and R62: the even word is the assembler's. -/
def Obligations.DecodeAndEncodeAgree : Prop :=
  (∀ i : Instr, decodeCmd (encode i) = i) ∧
    ∀ w : Cmd, encode (decodeCmd w) = if cmdOp w = 0b01#2 then w else cmdWord (cmdOp w) false

/-- R52: outside SHIFT the data bit changes nothing, in decoding and in the step. -/
def Obligations.DataBitIgnoredOutsideShift : Prop :=
  ∀ (op : BitVec 2) (s : State) (rest : List PortSample), op ≠ 0b01#2 →
    decodeCmd (cmdWord op true) = decodeCmd (cmdWord op false) ∧
      step { s with inputs := { rst := false, cmd := cmdWord op true } :: rest } =
        step { s with inputs := { rst := false, cmd := cmdWord op false } :: rest }

/-- The octal string of a list of command words reads back as those words. Derived from R64. -/
def Obligations.OctalWordsRoundTrip : Prop :=
  ∀ ws : List Cmd, wordsOfOctal (octalDigits ws) = .ok ws

/-- A number that is no 3-bit word is refused. The model's choice (log 7); R50 says the word has 3 bits. -/
def Obligations.OnlyThreeBitWordsDecode : Prop :=
  (∀ w : Cmd, decodeWord w.toNat = .ok (decodeCmd w)) ∧ ∀ w : Nat, 8 ≤ w → decodeWord w = .error .wordTooWide

/-- 41_frame_decode.md R94: a received element other than 0 and 1 is refused; bits are taken as they are. -/
def Obligations.NonBinaryElementsAreRefused : Prop :=
  (∀ l : List Nat, (∃ n, n ∈ l ∧ 2 ≤ n) → bitsOfSymbols l = .error .nonBinarySymbol) ∧
    ∀ bs : List Bool, bitsOfSymbols (bs.map Bool.toNat) = .ok bs

/-! ### The checksum -/

/-- 40_checksum.md R65: the fold, its independence of order, and the cancelling of a byte that appears twice. -/
def Obligations.XorFoldIsOrderFree : Prop :=
  xorFold [] = 0#8 ∧ xorFold [0xAF#8, 0xBB#8] = 0x14#8 ∧
    (∀ (B : List Byte) (b : Byte), xorFold (B ++ [b]) = xorFold B ^^^ b) ∧
    (∀ B C : List Byte, B.Perm C → xorFold B = xorFold C) ∧
    ∀ (A B C : List Byte) (b : Byte), xorFold (A ++ b :: B ++ b :: C) = xorFold (A ++ B ++ C)

/-- 40_checksum.md, XorCheck: the last byte against the fold of all before it, with the corner cases of two bytes and of a
zero payload, and the example. The fourth clause is an inference the spec marks as its own ('derived: from rule R65'): 'A
whole sequence that XORs to 0 (payload and checksum together) always passes'. -/
def Obligations.XorCheckComparesTheLastByte : Prop :=
  (∀ (a : Byte) (P : List Byte) (c : Byte), xorCheck (a :: P ++ [c]) = .ok (decide (xorFold (a :: P) = c))) ∧
    (∀ a b : Byte, xorCheck [a, b] = .ok (decide (a = b))) ∧
    (∀ (n : Nat) (c : Byte), xorCheck (List.replicate (n + 1) 0#8 ++ [c]) = .ok (decide (c = 0#8))) ∧
    (∀ (a b : Byte) (B : List Byte), xorCheck (a :: b :: B) = .ok (decide (xorFold (a :: b :: B) = 0#8))) ∧
    xorCheck [0xAF#8, 0xBB#8, 0x11#8, 0x90#8, 0x28#8, 0x80#8, 0x52#8, 0x00#8, 0x6F#8] = .ok true

/-- 40_checksum.md R67: fewer than two bytes are refused; the block's own input always has nine. -/
def Obligations.XorCheckRefusesShortInput : Prop :=
  xorCheck [] = .error .shortByteSequence ∧ (∀ a : Byte, xorCheck [a] = .error .shortByteSequence) ∧
    ∀ F : Frame, (frameBytes F).length = 9

/-- 40_checksum.md R70: the block's XOR tree is XorCheck of the frame's nine bytes. -/
def Obligations.BlockChecksumIsXorCheckOfTheFrame : Prop :=
  ∀ (aux : AuxFieldMap) (F : Frame),
    (frameRecord aux F).chkCalc =
        byte F 0 ^^^ byte F 1 ^^^ byte F 2 ^^^ byte F 3 ^^^ byte F 4 ^^^ byte F 5 ^^^ byte F 6 ^^^ byte F 7 ∧
      (frameRecord aux F).chkOk = decide ((frameRecord aux F).chkCalc = byte F 8) ∧
      xorCheck [byte F 0, byte F 1, byte F 2, byte F 3, byte F 4, byte F 5, byte F 6, byte F 7, byte F 8] =
        .ok (frameRecord aux F).chkOk

/-- 40_checksum.md, error-detection property, which the spec derives from R65 and R66: one flipped bit is detected, and
two flips at one bit position of two bytes cancel. -/
def Obligations.ChecksumDetectsEverySingleBitFlip : Prop :=
  ∀ (B : List Byte) (k : Nat), xorCheck B = .ok true → k < 8 →
    (∀ i, i < B.length → xorCheck (flipBit B i k) = .ok false) ∧
      ∀ i j, i < B.length → j < B.length → i ≠ j → xorCheck (flipBit (flipBit B i k) j k) = .ok true

/-! ### Bits, digits, frames and fields -/

/-- 20_memory.md R38: the first received bit of a nibble has weight 1 and the fourth weight 8. -/
def Obligations.FirstReceivedBitHasWeightOne : Prop :=
  ∀ b0 b1 b2 b3 : Bool,
    (nibbleDigit b0 b1 b2 b3).toNat = b0.toNat * 1 + b1.toNat * 2 + b2.toNat * 4 + b3.toNat * 8 ∧
      nibbleDigit b0 b1 b2 b3 = BitVec.ofBool b3 ++ BitVec.ofBool b2 ++ BitVec.ofBool b1 ++ BitVec.ofBool b0 ∧
      digitBits (nibbleDigit b0 b1 b2 b3) = [b0, b1, b2, b3]

/-- 20_memory.md R39, 41_frame_decode.md R75 and R76: where each received bit of a decoded list stands in the frame. -/
def Obligations.ReceivedNibblesBecomeDigits : Prop :=
  (∀ (s : List Bool) (F : Frame), decodeFn .v68 s = .frame F →
      digit F 0 = 0xA#4 ∧
        ∀ (n : Fin 17) (i : Nat), i < 4 → (digit F n.succ).getLsbD i = s.getD (4 * n.val + i) false) ∧
    ∀ (s : List Bool) (F : Frame), decodeFn .v64 s = .frame F →
      digit F 0 = 0xA#4 ∧ digit F 1 = 0xF#4 ∧
        ∀ (n : Fin 16) (i : Nat), i < 4 →
          (digit F n.succ.succ).getLsbD i = s.getD (s.length - 64 + (4 * n.val + i)) false

/-- Decoding what a transmitter sends of a frame gives that frame, for every frame with the implied prefix. Derived
from 30_encoding.md section 2 and 41_frame_decode.md section 3. -/
def Obligations.DecodingATransmissionGivesItsFrame : Prop :=
  (∀ F : Frame, digit F 0 = 0xA#4 → decodeFn .v68 (wireBits .v68 F) = .frame F) ∧
    ∀ F : Frame, digit F 0 = 0xA#4 → digit F 1 = 0xF#4 → decodeFn .v64 (wireBits .v64 F) = .frame F

/-- No received bit is lost: sending a decoded frame gives the bits it was decoded from (under `V64` the last 64).
Derived from the same sections. -/
def Obligations.TransmittingADecodedFrameGivesItsBits : Prop :=
  (∀ (s : List Bool) (F : Frame), decodeFn .v68 s = .frame F → wireBits .v68 F = s) ∧
    ∀ (s : List Bool) (F : Frame), decodeFn .v64 s = .frame F → wireBits .v64 F = s.drop (s.length - 64)

/-- 41_frame_decode.md R73 and R74: the length rule of `V64` and its trim. -/
def Obligations.V64TrimsToTheLast64Bits : Prop :=
  ∀ s : List Bool,
    (decodeFn .v64 s = .lenErr ↔ s.length < 64) ∧
      (64 ≤ s.length →
        (trim64 s).length = 64 ∧ trim64 s = s.drop (s.length - 64) ∧
          decodeFn .v64 s = decodeFn .v64 (s.drop (s.length - 64)))

/-- The length rule of `V68` on lists of at most 68 bits. Derived from 41_frame_decode.md section 2; lengths above 68
are left out, since their rejection rests on decision D6, which asks for no such claim (log 10). -/
def Obligations.V68AcceptsA68BitTransmission : Prop :=
  ∀ s : List Bool, s.length ≤ 68 → (decodeFn .v68 s = .lenErr ↔ s.length < 68)

/-- Under `V64`, bits received before a transmission's own 64 are harmless. The spec derives it (70_reset_and_hazards.md
section 3). -/
def Obligations.V64LeadingBitsAreHarmless : Prop :=
  ∀ stray own : List Bool, 64 ≤ own.length → decodeFn .v64 (stray ++ own) = decodeFn .v64 own

/-- A frame and its string of 18 digits are in one-to-one correspondence. Derived from 41_frame_decode.md section 3 and
decision D25. -/
def Obligations.FrameStringsAndFramesCorrespond : Prop :=
  (∀ F : Frame, frameOfDigits (frameDigits F) = F) ∧
    ∀ ds : List Digit, ds.length = 18 → frameDigits (frameOfDigits ds) = ds

/-- 20_memory.md R43: a field is the hex numeral its digits spell, the first listed most significant. -/
def Obligations.FieldsSpellTheirDigitsInListOrder : Prop :=
  ∀ (F : Frame) (p1 p2 p3 : Fin 18),
    digits3 F p1 p2 p3 = digit F p1 ++ digit F p2 ++ digit F p3 ∧
      (digits3 F p1 p2 p3).toNat = 256 * (digit F p1).toNat + 16 * (digit F p2).toNat + (digit F p3).toNat ∧
      (digits2 F p1 p2).toNat = 16 * (digit F p1).toNat + (digit F p2).toNat

/-- 41_frame_decode.md R85: the temperature in tenths, signed, its range, and the exact rational of the consumer. -/
def Obligations.TemperatureIsRawCodeLess400 : Prop :=
  ∀ (aux : AuxFieldMap) (F : Frame),
    (frameRecord aux F).tempDc.toInt = ((frameRecord aux F).tempRaw.toNat : Int) - 400 ∧
      -400 ≤ (frameRecord aux F).tempDc.toInt ∧ (frameRecord aux F).tempDc.toInt ≤ 3695 ∧
      (telemetryOf (frameRecord aux F)).temperatureC = (((frameRecord aux F).tempRaw.toNat : Rat) - 400) / 10

/-- 41_frame_decode.md R86 to R88: the three auxiliary fields under the default `AUX_FIELD_MAP`. Their places are the
spec's decision D8 (log 3). -/
def Obligations.AuxiliaryFieldsUnderTheDefaultMap : Prop :=
  ∀ F : Frame,
    (frameRecord defaultAux F).batt = digit F 9 ∧ digit F 9 = F.extractLsb' 32 4 ∧
      (frameRecord defaultAux F).intv = digit F 11 ∧ digit F 11 = F.extractLsb' 24 4 ∧
      (frameRecord defaultAux F).rain = digit F 14 ++ digit F 15 ∧ digit F 14 ++ digit F 15 = F.extractLsb' 8 8

/-- Under the default `AUX_FIELD_MAP` the frame can be rebuilt from the fields. The spec derives it (41_frame_decode.md
section 5), and it rests on decision D8 (log 3). -/
def Obligations.FieldsRebuildTheFrame : Prop :=
  ∀ F : Frame,
    let r := frameRecord defaultAux F
    F = r.sync ++ r.id ++ r.msgType ++ r.gap.extractLsb' 4 4 ++ r.gap.extractLsb' 8 4 ++ r.gap.extractLsb' 0 4 ++
      r.batt ++ r.tempRaw.extractLsb' 0 4 ++ r.intv ++ r.tempRaw.extractLsb' 4 4 ++ r.tempRaw.extractLsb' 8 4 ++
      r.rain ++ r.chk

/-! ### The commands: each completes in every state, with everything it changes and nothing else -/

/-- 42_commands.md R97. -/
def Obligations.NopClearsOnlyTheStrobe : Prop :=
  (∀ b : Bool, decodeCmd (cmdWord 0b00#2 b) = .nop) ∧
    ∀ s : State, exec .nop s = .next { s with resStrobe := false }

/-- 42_commands.md R98. -/
def Obligations.ShiftTakesInOneBit : Prop :=
  ∀ d : Bool, decodeCmd (cmdWord 0b01#2 d) = .shift d ∧
    ∀ s : State,
      exec (.shift d) s =
        .next { s with
          cap := s.cap.extractLsb' 0 67 ++ BitVec.ofBool d
          cnt := if s.cnt = 255#8 then 255#8 else s.cnt + 1#8
          resStrobe := false }

/-- SHIFT bit by bit: the new bit in `cap[0]`, every other bit one place up, the count one up and at most 255, all
result registers but the strobe kept. Derived from 10_state.md section 3. -/
def Obligations.ShiftMovesEveryBitUp : Prop :=
  ∀ (d : Bool) (s : State), ∃ t : State, exec (.shift d) s = .next t ∧
    t.cap.getLsbD 0 = d ∧ (∀ j, 0 < j → j < 68 → t.cap.getLsbD j = s.cap.getLsbD (j - 1)) ∧
    t.cnt.toNat = min (s.cnt.toNat + 1) 255 ∧ t.resStrobe = false ∧ t.resHave = s.resHave ∧ t.res = s.res ∧
    t.build = s.build ∧ t.inputs = s.inputs

/-- 42_commands.md R99. -/
def Obligations.ClearEmptiesTheCapture : Prop :=
  (∀ b : Bool, decodeCmd (cmdWord 0b10#2 b) = .clear) ∧
    ∀ s : State, exec .clear s = .next { s with cap := 0#68, cnt := 0#8, resStrobe := false }

/-- 42_commands.md R100, for every `VARIANT` and every `AUX_FIELD_MAP`; the last clause is R100's slices under the
default map (decision D8, log 3). That `V68` rejects a count above 68 is R100's test and rests on decision D6 (log 10). -/
def Obligations.DecodePublishesTheRecord : Prop :=
  (∀ b : Bool, decodeCmd (cmdWord 0b11#2 b) = .decode) ∧
    ∀ s : State, ∃ (t : State) (F : Frame), exec .decode s = .next t ∧ Rebuilt s.build.variant s.cap F ∧
      t.cap = 0#68 ∧ t.cnt = 0#8 ∧ t.resHave = true ∧ t.resStrobe = true ∧ t.build = s.build ∧ t.inputs = s.inputs ∧
      (Accepts s.build.variant s.cnt →
        t.res = publishedRecord F (digit F s.build.aux.batt) (digit F s.build.aux.intv)
          (digit F s.build.aux.rainHigh ++ digit F s.build.aux.rainLow)) ∧
      (¬ Accepts s.build.variant s.cnt → t.res = { ResultRecord.zero with errLen := true }) ∧
      (s.build.aux = defaultAux → Accepts s.build.variant s.cnt →
        t.res = publishedRecord F (F.extractLsb' 32 4) (F.extractLsb' 24 4) (F.extractLsb' 8 8))

/-! ### Steps, reset and the result registers -/

/-- A step with `rst = 0` is the decoded command on the state that waits for the next edge. Derived from 10_state.md
section 1; that waiting samples stand in a list is the model's choice (log 5). -/
def Obligations.StepRunsTheDecodedCommand : Prop :=
  ∀ (s : State) (w : Cmd) (rest : List PortSample), s.inputs = { rst := false, cmd := w } :: rest →
    step s = exec (decodeCmd w) { s with inputs := rest }

/-- 70_reset_and_hazards.md R125 and 60_exceptions.md R115: a reset step writes every register 0 whatever stands on
`cmd`, and `res_code` is then NONE. -/
def Obligations.ResetStepClearsEveryRegister : Prop :=
  ∀ (s : State) (w : Cmd) (rest : List PortSample), s.inputs = { rst := true, cmd := w } :: rest →
    ∃ t, step s = .next t ∧ resCode t = .none ∧
      t = { cap := 0#68, cnt := 0#8, resHave := false, resStrobe := false,
            res :=
              { errLen := false, frame := 0#72, sync := 0#8, syncOk := false, id := 0#8, msgType := 0#8, gap := 0#12,
                batt := 0#4, tempRaw := 0#12, tempDc := 0#13, intv := 0#4, rain := 0#8, chk := 0#8, chkCalc := 0#8,
                chkOk := false },
            build := s.build, inputs := rest }

/-- Every state element after reset has the value of the table in 10_state.md section 6. -/
def Obligations.ResetValuesAreZero : Prop :=
  State.reset.cap = 0#68 ∧ State.reset.cnt = 0#8 ∧ State.reset.resHave = false ∧ State.reset.resStrobe = false ∧
    State.reset.res =
      { errLen := false, frame := 0#72, sync := 0#8, syncOk := false, id := 0#8, msgType := 0#8, gap := 0#12,
        batt := 0#4, tempRaw := 0#12, tempDc := 0#13, intv := 0#4, rain := 0#8, chk := 0#8, chkCalc := 0#8,
        chkOk := false } ∧
    resCodeBits (resCode State.reset) = 0#2

/-- Every edge completes: while port samples wait, a step answers a next state, and only their end stops the machine.
Derived from 60_exceptions.md section 1; the stop at the end of the list is the model's choice (log 5). -/
def Obligations.NoEdgeEverStopsTheBlock : Prop :=
  (∀ (s : State) (p : PortSample) (rest : List PortSample), s.inputs = p :: rest →
      ∃ t, step s = .next t ∧ t.inputs = rest ∧ t.build = s.build) ∧
    ∀ s : State, s.inputs = [] → step s = .fault .noClockEdge

/-- 10_state.md R22: the strobe is 1 in exactly the state after a DECODE step. -/
def Obligations.StrobeMarksExactlyTheDecodeSteps : Prop :=
  State.reset.resStrobe = false ∧
    ∀ (s t : State) (p : PortSample) (rest : List PortSample), s.inputs = p :: rest → step s = .next t →
      (t.resStrobe = true ↔ p.rst = false ∧ cmdOp p.cmd = 0b11#2)

/-- `res_have` over a run of any steps from any state: 1 exactly when a DECODE has been performed since the last reset
step, or it was 1 and no reset step came. Derived from 10_state.md section 4. -/
def Obligations.HaveMarksADecodeSinceReset : Prop :=
  ∀ (s t : State) (ps rest : List PortSample), s.inputs = ps ++ rest → RunsTo ps.length s t →
    (t.resHave = true ↔
      (∃ before p after, ps = before ++ p :: after ∧ isDecodeStep p = true ∧ ∀ q ∈ after, q.rst = false) ∨
        (s.resHave = true ∧ ∀ q ∈ ps, q.rst = false))

/-- The result-record invariant is kept by every step. The spec derives it (10_state.md section 4). -/
def Obligations.EveryStepKeepsTheRecordInvariant : Prop :=
  ∀ s t : State, RecordInv s → step s = .next t → RecordInv t

/-- The state after reset has the result-record invariant. -/
def Obligations.ResetHasTheRecordInvariant : Prop := RecordInv State.reset

/-- Every step keeps the capture invariant, for the received bits it leaves. The spec derives it (10_state.md
section 3). -/
def Obligations.EveryStepKeepsTheCaptureInvariant : Prop :=
  ∀ (s t : State) (p : PortSample) (rest : List PortSample) (bits : List Bool), Captured s bits →
    s.inputs = p :: rest → step s = .next t → Captured t (receivedAfter bits p)

/-- The state after reset has captured no bit. -/
def Obligations.ResetHasCapturedNothing : Prop := Captured State.reset []

/-- Over any run the capture holds the bits received since it was last emptied, and the run never stops. The spec
derives it (10_state.md section 3). -/
def Obligations.CaptureHoldsTheReceivedBitsOverAnyRun : Prop :=
  ∀ (s : State) (bits : List Bool) (ps rest : List PortSample), Captured s bits → s.inputs = ps ++ rest →
    ∃ t, RunsTo ps.length s t ∧ Captured t (receivedOver bits ps) ∧ t.inputs = rest ∧ t.build = s.build

/-- A DECODE command publishes the record of `DecodeFn` on the received bits: the capture register and the decode
function agree. The spec derives it (41_frame_decode.md section 5). -/
def Obligations.DecodeAgreesWithTheDecodeFunction : Prop :=
  ∀ (s : State) (bits : List Bool), Captured s bits →
    exec .decode s =
      .next { s with
        cap := 0#68
        cnt := 0#8
        resHave := true
        resStrobe := true
        res := recordOf s.build.aux (decodeFn s.build.variant bits) }

/-- One transmission from any state: a CLEAR, then SHIFTs with any NOPs between them, then a DECODE publish the record
of `DecodeFn` on the shifted bits. The spec derives it (42_commands.md, section on transmissions). -/
def Obligations.OneTransmissionPublishesItsRecord : Prop :=
  ∀ (s : State) (ps rest : List PortSample), (∀ p ∈ ps, feeds p = true) →
    s.inputs = commandSample .clear :: ps ++ commandSample .decode :: rest →
    ∃ t, RunsTo (ps.length + 2) s t ∧
      t.res = recordOf s.build.aux (decodeFn s.build.variant (receivedOver [] ps)) ∧
      t.resHave = true ∧ t.resStrobe = true ∧ t.cap = 0#68 ∧ t.cnt = 0#8 ∧ t.build = s.build ∧ t.inputs = rest

/-- A FRAME68 or FRAME64 line, from any state, publishes the frame of its digits in 70 or 66 steps. Derived from
30_encoding.md section 3 and 41_frame_decode.md section 3. -/
def Obligations.FrameLinePublishesItsDigits : Prop :=
  (∀ (s : State) (hs : Vector Digit 17) (rest : List PortSample), s.build.variant = .v68 →
      s.inputs = lineSamples (.frame68 hs) ++ rest →
      ∃ t, RunsTo 70 s t ∧ t.res = frameRecord s.build.aux (frameOfDigits (0xA#4 :: hs.toList)) ∧
        t.resStrobe = true ∧ t.inputs = rest) ∧
    ∀ (s : State) (hs : Vector Digit 16) (rest : List PortSample), s.build.variant = .v64 →
      s.inputs = lineSamples (.frame64 hs) ++ rest →
      ∃ t, RunsTo 66 s t ∧ t.res = frameRecord s.build.aux (frameOfDigits (0xA#4 :: 0xF#4 :: hs.toList)) ∧
        t.resStrobe = true ∧ t.inputs = rest

/-- A result does not depend on anything before the capture was last emptied: two runs of the same block and the same
steps, one of which empties the capture, end their DECODE with the same result record, whatever their first states
held. Derived from 41_frame_decode.md section 5 (determinism). -/
def Obligations.DecodeForgetsWhatCameBeforeEmptying : Prop :=
  ∀ (s₁ s₂ t₁ t₂ : State) (before ps : List PortSample) (p q : PortSample) (rest : List PortSample),
    s₁.build = s₂.build → empties p = true → isDecodeStep q = true →
    s₁.inputs = before ++ p :: ps ++ q :: rest → s₂.inputs = s₁.inputs →
    RunsTo (before.length + ps.length + 2) s₁ t₁ → RunsTo (before.length + ps.length + 2) s₂ t₂ → t₁.res = t₂.res

/-- The capture is observed only through a DECODE: two blocks whose output ports agree, whatever their captures hold,
agree on every output port after any run of the same steps without a DECODE. Derived from 10_state.md section 3. -/
def Obligations.CaptureIsObservedOnlyThroughDecode : Prop :=
  ∀ (s₁ s₂ t₁ t₂ : State) (ps rest : List PortSample), outputs s₁ = outputs s₂ →
    (∀ p ∈ ps, isDecodeStep p = false) → s₁.inputs = ps ++ rest → s₂.inputs = ps ++ rest →
    RunsTo ps.length s₁ t₁ → RunsTo ps.length s₂ t₂ → outputs t₁ = outputs t₂

/-- A result stays until the next DECODE or reset: any run of other commands keeps the result record, and after its
first step the strobe is 0. The spec derives it (70_reset_and_hazards.md section 3). -/
def Obligations.ResultStaysUntilDecodeOrReset : Prop :=
  ∀ (s : State) (p : PortSample) (ps rest : List PortSample), (∀ q ∈ p :: ps, keepsRecord q = true) →
    s.inputs = p :: ps ++ rest →
    ∃ t, RunsTo (ps.length + 1) s t ∧ t.res = s.res ∧ t.resHave = s.resHave ∧ t.resStrobe = false ∧
      t.build = s.build ∧ t.inputs = rest

/-- Any number of NOP steps changes nothing but the strobe. Derived from 60_exceptions.md section 5 and 42_commands.md
section on NOP. -/
def Obligations.IdleStepsKeepTheState : Prop :=
  ∀ (s : State) (p : PortSample) (ps rest : List PortSample),
    (∀ q ∈ p :: ps, q.rst = false ∧ decodeCmd q.cmd = .nop) → s.inputs = p :: ps ++ rest →
    RunsTo (ps.length + 1) s { s with resStrobe := false, inputs := rest }

/-- A run of SHIFTs alone: the counter saturates at 255 and never wraps. Derived from 10_state.md section 3 and
42_commands.md on saturation. -/
def Obligations.CounterSaturatesAt255 : Prop :=
  ∀ (s : State) (ds : List Bool) (rest : List PortSample),
    s.inputs = (shifts ds).map commandSample ++ rest →
    ∃ t, RunsTo ds.length s t ∧ t.cnt.toNat = min (s.cnt.toNat + ds.length) 255 ∧
      t.res = s.res ∧ t.resHave = s.resHave ∧ t.build = s.build ∧ t.inputs = rest

/-- A DECODE right after a reset, CLEAR or DECODE step is a length error, under both variants. The spec derives it
(42_commands.md on back-to-back DECODE). -/
def Obligations.DecodeOfAnEmptyCaptureIsALengthError : Prop :=
  ∀ (s : State) (p q : PortSample) (rest : List PortSample), empties p = true → isDecodeStep q = true →
    s.inputs = p :: q :: rest →
    ∃ t, RunsTo 2 s t ∧ t.res = { ResultRecord.zero with errLen := true } ∧ resCode t = .lenerr ∧
      t.resStrobe = true ∧ t.inputs = rest

/-- 10_state.md R33: the table of `res_code`; the sync flag does not enter it. -/
def Obligations.ResultCodeFollowsItsTable : Prop :=
  (∀ s : State,
      (s.resHave = false → resCode s = .none) ∧
        (s.resHave = true → s.res.errLen = false → s.res.chkOk = true → resCode s = .ok) ∧
        (s.resHave = true → s.res.errLen = false → s.res.chkOk = false → resCode s = .chkbad) ∧
        (s.resHave = true → s.res.errLen = true → resCode s = .lenerr) ∧
        ∀ b : Bool, resCode { s with res := { s.res with syncOk := b } } = resCode s) ∧
    resCodeBits .none = 0#2 ∧ resCodeBits .ok = 1#2 ∧ resCodeBits .chkbad = 2#2 ∧ resCodeBits .lenerr = 3#2 ∧
    resCode State.reset = .none

/-- 60_exceptions.md R113: a wrong length is the only report; with a right length the checksum and the sync flag are
reported side by side. -/
def Obligations.LengthErrorComesFirst : Prop :=
  ∀ s : State, ∃ t, exec .decode s = .next t ∧
    (¬ Accepts s.build.variant s.cnt →
      resCode t = .lenerr ∧ t.res.frame = 0#72 ∧ t.res.chkOk = false ∧ t.res.syncOk = false) ∧
    (Accepts s.build.variant s.cnt →
      t.res.errLen = false ∧ (resCode t = .ok ↔ slicedChecksum t.res.frame = t.res.frame.extractLsb' 0 8) ∧
        (resCode t = .chkbad ↔ slicedChecksum t.res.frame ≠ t.res.frame.extractLsb' 0 8) ∧
        (t.res.syncOk = true ↔ t.res.frame.extractLsb' 64 8 = 0xAF#8))

/-- A wrong sync byte can come with a good and with a bad checksum. Derived from 60_exceptions.md section 2. -/
def Obligations.SyncFlagIsOrthogonalToTheChecksum : Prop :=
  (∃ s t : State, exec .decode s = .next t ∧ t.res.syncOk = false ∧ resCode t = .ok) ∧
    (∃ s t : State, exec .decode s = .next t ∧ t.res.syncOk = false ∧ resCode t = .chkbad) ∧
    (∃ s t : State, exec .decode s = .next t ∧ t.res.syncOk = true ∧ resCode t = .ok) ∧
    ∃ s t : State, exec .decode s = .next t ∧ t.res.syncOk = true ∧ resCode t = .chkbad

/-- The consumer's view: no frame in any state whose `res_code` is NONE or LENERR, and after a DECODE of a decoded frame
all ten fields of TelemetryFrame, by the consumer's-value column of 10_state.md section 4. The three auxiliary fields are
taken at the digits of `AUX_FIELD_MAP`, whatever its value. Derived from that column and 93_implementation_defined.md I7;
the view itself is the model's (log 11). -/
def Obligations.ConsumerReadsOnlyDecodedFrames : Prop :=
  (∀ s : State, s.resHave = false ∨ s.res.errLen = true → telemetry s = none) ∧
    ∀ (s : State) (bits : List Bool), Captured s bits → ∃ t, exec .decode s = .next t ∧
      (decodeFn s.build.variant bits = .lenErr → telemetry t = none) ∧
      ∀ F, decodeFn s.build.variant bits = .frame F →
        ∃ f, telemetry t = some f ∧
          f.syncByte = F.extractLsb' 64 8 ∧
          f.deviceId = F.extractLsb' 56 8 ∧
          f.messageType = F.extractLsb' 48 8 ∧
          f.airGapCm.toNat = 256 * (digit F 7).toNat + 16 * (digit F 6).toNat + (digit F 8).toNat ∧
          f.batteryState = (digit F s.build.aux.batt).setWidth 8 ∧
          f.temperatureC =
            (((256 * (digit F 13).toNat + 16 * (digit F 12).toNat + (digit F 10).toNat : Nat) : Rat) - 400) / 10 ∧
          f.intervalFlag = (digit F s.build.aux.intv).setWidth 8 ∧
          f.rainFlag = (digit F s.build.aux.rainHigh ++ digit F s.build.aux.rainLow).setWidth 16 ∧
          f.checksum = F.extractLsb' 0 8 ∧
          (f.checksumValid = true ↔ xorCheck (frameBytes F) = .ok true)

/-- 00_scope.md, parameters: no run changes `VARIANT` or `AUX_FIELD_MAP`. That the state carries them is the model's
choice (log 1). -/
def Obligations.ParametersNeverChange : Prop :=
  ∀ (n : Nat) (s t : State), RunsTo n s t → t.build = s.build
end

