-- ==== Sys2Proof/Laws/Bits.lean ====
section
/-!
SUPPORT. Each bit of what the operand forms, the capture register and the rebuilt frame hold.
-/

namespace Sys2Proof.Machine

open Sys2Proof

theorem getLsbD_rev4 (x : Digit) (i : Nat) (h : i < 4) : (rev4 x).getLsbD i = x.getLsbD (3 - i) := by
  revert x i; decide

theorem getLsbD_nibbleDigit (b0 b1 b2 b3 : Bool) (i : Nat) (h : i < 4) :
    (nibbleDigit b0 b1 b2 b3).getLsbD i = [b0, b1, b2, b3].getD i false := by
  revert b0 b1 b2 b3 i; decide

theorem digitBits_nibbleDigit (b0 b1 b2 b3 : Bool) : digitBits (nibbleDigit b0 b1 b2 b3) = [b0, b1, b2, b3] := by
  revert b0 b1 b2 b3; decide

theorem nibbleDigit_bits (h : Digit) :
    nibbleDigit (h.getLsbD 0) (h.getLsbD 1) (h.getLsbD 2) (h.getLsbD 3) = h := by
  revert h; decide

/-- Every nibble stays at its place, with its bits reversed. -/
theorem getLsbD_revNibbles (n : Nat) (x : BitVec (4 * n)) (m i : Nat) (hm : m < n) (hi : i < 4) :
    (revNibbles n x).getLsbD (4 * m + i) = x.getLsbD (4 * m + (3 - i)) := by
  induction n generalizing m with
  | zero => omega
  | succ n ih =>
    rw [revNibbles, BitVec.getLsbD_append]
    cases m with
    | zero =>
      rw [if_pos (by omega), Nat.mul_zero, Nat.zero_add, Nat.zero_add, getLsbD_rev4 _ _ hi, BitVec.getLsbD_extractLsb']
      simp; omega
    | succ m =>
      rw [if_neg (by omega), show 4 * (m + 1) + i - 4 = 4 * m + i by omega, ih _ m (by omega),
        BitVec.getLsbD_extractLsb']
      rw [show 4 + (4 * m + (3 - i)) = 4 * (m + 1) + (3 - i) by omega]
      simp; omega

theorem getLsbD_shiftedCap (cap : Capture) (d : Bool) (j : Nat) (h : j < 68) :
    (shiftedCap cap d).getLsbD j = if j = 0 then d else cap.getLsbD (j - 1) := by
  rw [shiftedCap, BitVec.getLsbD_append]
  cases j with
  | zero => simp
  | succ j => simp; omega

theorem toNat_nextCnt (cnt : Count) : (nextCnt cnt).toNat = min (cnt.toNat + 1) 255 := by
  unfold nextCnt cntMax
  split
  · next h => subst h; rfl
  · next h =>
    have h1 : cnt.toNat ≠ 255 := fun h2 => h (BitVec.eq_of_toNat_eq h2)
    have h2 := cnt.isLt
    rw [BitVec.toNat_add]
    simp
    omega

theorem getLsbD_digit (F : Frame) (k : Fin 18) (i : Nat) (h : i < 4) :
    (digit F k).getLsbD i = F.getLsbD (68 - 4 * k.val + i) := by
  simp [digit, h]

theorem getLsbD_byte (F : Frame) (j : Fin 9) (i : Nat) (h : i < 8) :
    (byte F j).getLsbD i = F.getLsbD (64 - 8 * j.val + i) := by
  simp [byte, h]

/-- Two frames with the same digits are the same. -/
theorem frame_ext_digits {F G : Frame} (h : ∀ k, digit F k = digit G k) : F = G := by
  apply BitVec.eq_of_getLsbD_eq
  intro j hj
  have hk := congrArg (fun d => BitVec.getLsbD d (j % 4)) (h ⟨17 - j / 4, by omega⟩)
  simp only [getLsbD_digit _ _ _ (Nat.mod_lt j (by omega))] at hk
  rwa [show 68 - 4 * (17 - j / 4) + j % 4 = j by omega] at hk

/-- Under `V68` a received digit's bits are the capture's, reversed in the nibble. -/
theorem getLsbD_rebuiltFrame_v68 (cap : Capture) (m i : Nat) (hm : m < 17) (hi : i < 4) :
    (rebuiltFrame .v68 cap).getLsbD (4 * m + i) = cap.getLsbD (4 * m + (3 - i)) := by
  have h : (rebuiltFrame .v68 cap).getLsbD (4 * m + i) = (revNibbles 17 cap).getLsbD (4 * m + i) := by
    rw [rebuiltFrame, BitVec.getLsbD_append, if_pos (by omega)]
  rw [h, getLsbD_revNibbles 17 cap m i hm hi]

/-- Under `V64` likewise, on the low 64 bits. -/
theorem getLsbD_rebuiltFrame_v64 (cap : Capture) (m i : Nat) (hm : m < 16) (hi : i < 4) :
    (rebuiltFrame .v64 cap).getLsbD (4 * m + i) = cap.getLsbD (4 * m + (3 - i)) := by
  have h : (rebuiltFrame .v64 cap).getLsbD (4 * m + i) =
      (revNibbles 16 (cap.extractLsb' 0 64)).getLsbD (4 * m + i) := by
    rw [rebuiltFrame, BitVec.getLsbD_append, if_pos (by omega)]
  rw [h, getLsbD_revNibbles 16 _ m i hm hi, BitVec.getLsbD_extractLsb']
  simp; omega

/-- Above the received digits stands the implied prefix. -/
theorem getLsbD_rebuiltFrame_v68_prefix (cap : Capture) (i : Nat) :
    (rebuiltFrame .v68 cap).getLsbD (68 + i) = prefixV68.getLsbD i := by
  rw [rebuiltFrame, BitVec.getLsbD_append, if_neg (by omega), show 68 + i - 4 * 17 = i by omega]

theorem getLsbD_rebuiltFrame_v64_prefix (cap : Capture) (i : Nat) :
    (rebuiltFrame .v64 cap).getLsbD (64 + i) = prefixV64.getLsbD i := by
  rw [rebuiltFrame, BitVec.getLsbD_append, if_neg (by omega), show 64 + i - 4 * 16 = i by omega]

end Sys2Proof.Machine
end

