-- ==== Sys2Proof/Laws/Decode.lean ====
section
/-!
SUPPORT. What the checksum, decode and loading operations do, said once.
-/

namespace Sys2Proof.Machine

open Sys2Proof

theorem xorFold_nil : xorFold [] = 0#8 := rfl

/-- The fold from any start. -/
theorem xorFold_from (B : List Byte) (a : Byte) : B.foldl (fun acc b => acc ^^^ b) a = a ^^^ xorFold B := by
  induction B generalizing a with
  | nil => simp [xorFold]
  | cons b B ih => simp [xorFold, List.foldl_cons, ih (a ^^^ b), ih b, BitVec.xor_assoc]

theorem xorFold_cons (b : Byte) (B : List Byte) : xorFold (b :: B) = b ^^^ xorFold B := by
  rw [xorFold, List.foldl_cons, xorFold_from, BitVec.zero_xor]

theorem xorCheck_of_two_le {B : List Byte} (h : 2 ≤ B.length) :
    xorCheck B = .ok (xorFold B.dropLast == B.getLastD 0#8) := by
  simp [xorCheck, isChecksumInput, h]

theorem lengthOk_v68 (cnt : Count) : lengthOk .v68 cnt = true ↔ cnt.toNat = 68 := decide_eq_true_iff

theorem lengthOk_v64 (cnt : Count) : lengthOk .v64 cnt = true ↔ 64 ≤ cnt.toNat := decide_eq_true_iff

/-- A capture of accepted length publishes the fields of the rebuilt frame. -/
theorem decodeCapture_accepted {b : Build} {cap : Capture} {cnt : Count} (h : lengthOk b.variant cnt = true) :
    decodeCapture b cap cnt = frameRecord b.aux (rebuiltFrame b.variant cap) := by
  rw [decodeCapture, if_pos h, recordOf]

/-- Any other capture publishes the length error. -/
theorem decodeCapture_rejected {b : Build} {cap : Capture} {cnt : Count} (h : ¬ lengthOk b.variant cnt = true) :
    decodeCapture b cap cnt = lenErrRecord := by
  rw [decodeCapture, if_neg h, recordOf]

/-- Each further digit is appended at the low end. -/
theorem frameOfDigits_append_singleton (ds : List Digit) (d : Digit) :
    frameOfDigits (ds ++ [d]) = (frameOfDigits ds <<< 4) ||| d.setWidth 72 := by
  simp [frameOfDigits, List.foldl_append]

/-- Each bit of the frame of a digit string, counted from its last digit. -/
theorem getLsbD_frameOfDigits (ds : List Digit) (j : Nat) (hj : j < 72) :
    (frameOfDigits ds).getLsbD j = (ds.reverse.getD (j / 4) 0#4).getLsbD (j % 4) := by
  induction ds using List.reverseRecOn generalizing j with
  | nil => simp [frameOfDigits]
  | append_singleton ds d ih =>
    rw [frameOfDigits_append_singleton]
    simp only [BitVec.getLsbD_or, BitVec.getLsbD_shiftLeft, BitVec.getLsbD_setWidth, List.reverse_append,
      List.reverse_singleton, List.singleton_append]
    by_cases h4 : j < 4
    · have h0 : j / 4 = 0 := by omega
      have h1 : j % 4 = j := by omega
      simp [h4, h0, h1, hj]
    · have h0 : j / 4 = (j - 4) / 4 + 1 := by omega
      have h1 : (j - 4) % 4 = j % 4 := by omega
      have h2 : d.getLsbD j = false := BitVec.getLsbD_of_ge _ _ (by omega)
      rw [h0, List.getD_cons_succ, ih (j - 4) (by omega), h1]
      simp [h4, hj, h2]

theorem nibbleDigits_length (s : List Bool) : (nibbleDigits s).length = s.length / 4 := by
  fun_induction nibbleDigits s with
  | case1 b0 b1 b2 b3 rest ih => simp [ih]; omega
  | case2 s h =>
    rcases s with _ | ⟨a, _ | ⟨b, _ | ⟨c, _ | ⟨d, t⟩⟩⟩⟩ <;> first | exact absurd rfl (h _ _ _ _ _) | simp

/-- Bit `i` of digit `n` is the received bit `4n + i`. -/
theorem getLsbD_getD_nibbleDigits (s : List Bool) (n i : Nat) (hi : i < 4) (hn : 4 * n + 3 < s.length) :
    ((nibbleDigits s).getD n 0#4).getLsbD i = s.getD (4 * n + i) false := by
  fun_induction nibbleDigits s generalizing n with
  | case1 b0 b1 b2 b3 rest ih =>
    cases n with
    | zero =>
      rw [List.getD_cons_zero, getLsbD_nibbleDigit _ _ _ _ _ hi]
      rcases i with _ | _ | _ | _ | i <;> first | omega | rfl
    | succ n =>
      rw [List.getD_cons_succ, ih n (by simp at hn; omega), show 4 * (n + 1) + i = 4 * n + i + 4 by omega]
      rfl
  | case2 s h =>
    rcases s with _ | ⟨a, _ | ⟨b, _ | ⟨c, _ | ⟨d, t⟩⟩⟩⟩ <;> first | exact absurd rfl (h _ _ _ _ _) | simp at hn

theorem digitsBits_cons (d : Digit) (ds : List Digit) : digitsBits (d :: ds) = digitBits d ++ digitsBits ds := rfl

theorem digitsBits_length (ds : List Digit) : (digitsBits ds).length = 4 * ds.length := by
  induction ds with
  | nil => rfl
  | cons d ds ih => rw [digitsBits_cons, List.length_append, ih, List.length_cons]; simp [digitBits]; omega

@[simp] theorem frameDigits_length (F : Frame) : (frameDigits F).length = 18 := rfl

@[simp] theorem frameBytes_length (F : Frame) : (frameBytes F).length = 9 := rfl

/-- Presenting a command word puts its sample before every waiting one. -/
theorem presentWord_of_lt {w : Nat} (h : w < 8) (s : State) :
    presentWord s w = { s with inputs := { rst := false, cmd := BitVec.ofNat 3 w } :: s.inputs } := by
  simp [presentWord, isCommandWord, h]

/-- A number that is no command word leaves no edge. -/
theorem presentWord_of_le {w : Nat} (h : 8 ≤ w) (s : State) : presentWord s w = { s with inputs := [] } := by
  simp [presentWord, isCommandWord, Nat.not_lt.2 h]

end Sys2Proof.Machine
end

