-- ==== Sys2Proof/Laws/PerInstr.lean ====
section
/-!
SUPPORT. A statement made of every command as syntax: its word, under the mask of its row of spec/opcode_table.json,
is the row's match value.
-/

namespace Sys2Proof.Laws.EncodedWordMatchesTable

open Sys2Proof

/-- The "match" column of spec/opcode_table.json (30_encoding.md R51). -/
def tableMatch : Instr → Cmd
  | .nop => 0b000#3
  | .shift _ => 0b010#3
  | .clear => 0b100#3
  | .decode => 0b110#3

/-- The emitted word matches its row under the mask `0b110`. -/
def Statement (i : Instr) : Prop := encode i &&& 0b110#3 = tableMatch i

theorem nop : Statement .nop := by unfold Statement; decide

theorem shift (din : Bool) : Statement (.shift din) := by unfold Statement; cases din <;> decide

theorem clear : Statement .clear := by unfold Statement; decide

theorem decode : Statement .decode := by unfold Statement; decide

end Sys2Proof.Laws.EncodedWordMatchesTable
end

