-- ==== Sys2Proof/Laws/State.lean ====
section
/-!
SUPPORT. One lemma per field of State for each named operation that updates it, so that no proof unfolds a record
update.
-/

namespace Sys2Proof.Machine

open Sys2Proof

@[simp] theorem clearStrobe_cap (s : State) : (clearStrobe s).cap = s.cap := rfl
@[simp] theorem clearStrobe_cnt (s : State) : (clearStrobe s).cnt = s.cnt := rfl
@[simp] theorem clearStrobe_resHave (s : State) : (clearStrobe s).resHave = s.resHave := rfl
@[simp] theorem clearStrobe_resStrobe (s : State) : (clearStrobe s).resStrobe = false := rfl
@[simp] theorem clearStrobe_res (s : State) : (clearStrobe s).res = s.res := rfl
@[simp] theorem clearStrobe_build (s : State) : (clearStrobe s).build = s.build := rfl
@[simp] theorem clearStrobe_inputs (s : State) : (clearStrobe s).inputs = s.inputs := rfl

@[simp] theorem captureBit_cap (d : Bool) (s : State) : (captureBit d s).cap = shiftedCap s.cap d := rfl
@[simp] theorem captureBit_cnt (d : Bool) (s : State) : (captureBit d s).cnt = nextCnt s.cnt := rfl
@[simp] theorem captureBit_resHave (d : Bool) (s : State) : (captureBit d s).resHave = s.resHave := rfl
@[simp] theorem captureBit_resStrobe (d : Bool) (s : State) : (captureBit d s).resStrobe = s.resStrobe := rfl
@[simp] theorem captureBit_res (d : Bool) (s : State) : (captureBit d s).res = s.res := rfl
@[simp] theorem captureBit_build (d : Bool) (s : State) : (captureBit d s).build = s.build := rfl
@[simp] theorem captureBit_inputs (d : Bool) (s : State) : (captureBit d s).inputs = s.inputs := rfl

@[simp] theorem emptyCapture_cap (s : State) : (emptyCapture s).cap = 0#68 := rfl
@[simp] theorem emptyCapture_cnt (s : State) : (emptyCapture s).cnt = 0#8 := rfl
@[simp] theorem emptyCapture_resHave (s : State) : (emptyCapture s).resHave = s.resHave := rfl
@[simp] theorem emptyCapture_resStrobe (s : State) : (emptyCapture s).resStrobe = s.resStrobe := rfl
@[simp] theorem emptyCapture_res (s : State) : (emptyCapture s).res = s.res := rfl
@[simp] theorem emptyCapture_build (s : State) : (emptyCapture s).build = s.build := rfl
@[simp] theorem emptyCapture_inputs (s : State) : (emptyCapture s).inputs = s.inputs := rfl

@[simp] theorem publish_cap (r : ResultRecord) (s : State) : (publish r s).cap = s.cap := rfl
@[simp] theorem publish_cnt (r : ResultRecord) (s : State) : (publish r s).cnt = s.cnt := rfl
@[simp] theorem publish_resHave (r : ResultRecord) (s : State) : (publish r s).resHave = true := rfl
@[simp] theorem publish_resStrobe (r : ResultRecord) (s : State) : (publish r s).resStrobe = true := rfl
@[simp] theorem publish_res (r : ResultRecord) (s : State) : (publish r s).res = r := rfl
@[simp] theorem publish_build (r : ResultRecord) (s : State) : (publish r s).build = s.build := rfl
@[simp] theorem publish_inputs (r : ResultRecord) (s : State) : (publish r s).inputs = s.inputs := rfl

@[simp] theorem resetBlock_cap (s : State) : (resetBlock s).cap = 0#68 := rfl
@[simp] theorem resetBlock_cnt (s : State) : (resetBlock s).cnt = 0#8 := rfl
@[simp] theorem resetBlock_resHave (s : State) : (resetBlock s).resHave = false := rfl
@[simp] theorem resetBlock_resStrobe (s : State) : (resetBlock s).resStrobe = false := rfl
@[simp] theorem resetBlock_res (s : State) : (resetBlock s).res = ResultRecord.zero := rfl
@[simp] theorem resetBlock_build (s : State) : (resetBlock s).build = s.build := rfl
@[simp] theorem resetBlock_inputs (s : State) : (resetBlock s).inputs = s.inputs := rfl

@[simp] theorem reset_cap : State.reset.cap = 0#68 := rfl
@[simp] theorem reset_cnt : State.reset.cnt = 0#8 := rfl
@[simp] theorem reset_resHave : State.reset.resHave = false := rfl
@[simp] theorem reset_resStrobe : State.reset.resStrobe = false := rfl
@[simp] theorem reset_res : State.reset.res = ResultRecord.zero := rfl
@[simp] theorem reset_inputs : State.reset.inputs = [] := rfl

@[simp] theorem lenErrRecord_errLen : lenErrRecord.errLen = true := rfl
@[simp] theorem frameRecord_errLen (aux : AuxFieldMap) (F : Frame) : (frameRecord aux F).errLen = false := rfl
@[simp] theorem frameRecord_frame (aux : AuxFieldMap) (F : Frame) : (frameRecord aux F).frame = F := rfl
@[simp] theorem frameRecord_chkOk (aux : AuxFieldMap) (F : Frame) : (frameRecord aux F).chkOk = chkOk F := rfl
@[simp] theorem frameRecord_syncOk (aux : AuxFieldMap) (F : Frame) : (frameRecord aux F).syncOk = syncOk F := rfl
@[simp] theorem zero_errLen : ResultRecord.zero.errLen = false := rfl

end Sys2Proof.Machine
end

