-- ==== Sys2Proof/Laws/Step.lean ====
section
/-!
SUPPORT. What a step can do, said once: one lemma per meaning, the cases of a clock edge, and the cases of a step.
-/

namespace Sys2Proof.Machine

open Sys2Proof

theorem takeSample_nil {s : State} (h : s.inputs = []) : takeSample s = none := by
  simp [takeSample, h]

theorem takeSample_cons {s : State} {p : PortSample} {rest : List PortSample} (h : s.inputs = p :: rest) :
    takeSample s = some (p, { s with inputs := rest }) := by
  simp [takeSample, h]

/-- The state a clock edge leads to, as a function of the port levels: no edge stops. -/
def afterEdge (p : PortSample) (s : State) : State :=
  if p.rst then resetBlock s
  else
    match decodeCmd p.cmd with
    | .nop => clearStrobe s
    | .shift d => clearStrobe (captureBit d s)
    | .clear => clearStrobe (emptyCapture s)
    | .decode => emptyCapture (publish (decodeCapture s.build s.cap s.cnt) s)

/-- Every clock edge answers a next state. -/
theorem clockEdge_eq (p : PortSample) (s : State) : clockEdge p s = .next (afterEdge p s) := by
  unfold clockEdge afterEdge
  split
  · rfl
  · cases decodeCmd p.cmd <;> rfl

theorem step_nil {s : State} (h : s.inputs = []) : step s = .fault .noClockEdge := by
  simp [step, takeSample_nil h]

theorem step_cons {s : State} {p : PortSample} {rest : List PortSample} (h : s.inputs = p :: rest) :
    step s = .next (afterEdge p { s with inputs := rest }) := by
  simp [step, takeSample_cons h, clockEdge_eq]

/-- Everything a step that answers a next state can have done. -/
theorem step_cases {s t : State} (h : step s = .next t) :
    ∃ p rest, s.inputs = p :: rest ∧ t = afterEdge p { s with inputs := rest } := by
  cases hi : s.inputs with
  | nil => rw [step_nil hi] at h; cases h
  | cons p rest =>
    rw [step_cons hi] at h
    exact ⟨p, rest, rfl, by cases h; rfl⟩

theorem afterEdge_reset {p : PortSample} (h : p.rst = true) (s : State) : afterEdge p s = resetBlock s := by
  simp [afterEdge, h]

theorem afterEdge_nop {p : PortSample} (h : p.rst = false) (hc : decodeCmd p.cmd = .nop) (s : State) :
    afterEdge p s = clearStrobe s := by
  simp [afterEdge, h, hc]

theorem afterEdge_shift {p : PortSample} {d : Bool} (h : p.rst = false) (hc : decodeCmd p.cmd = .shift d) (s : State) :
    afterEdge p s = clearStrobe (captureBit d s) := by
  simp [afterEdge, h, hc]

theorem afterEdge_clear {p : PortSample} (h : p.rst = false) (hc : decodeCmd p.cmd = .clear) (s : State) :
    afterEdge p s = clearStrobe (emptyCapture s) := by
  simp [afterEdge, h, hc]

theorem afterEdge_decode {p : PortSample} (h : p.rst = false) (hc : decodeCmd p.cmd = .decode) (s : State) :
    afterEdge p s = emptyCapture (publish (decodeCapture s.build s.cap s.cnt) s) := by
  simp [afterEdge, h, hc]

/-- No edge changes the build-time parameters. -/
@[simp] theorem afterEdge_build (p : PortSample) (s : State) : (afterEdge p s).build = s.build := by
  unfold afterEdge
  split
  · rfl
  · cases decodeCmd p.cmd <;> rfl

/-- An edge leaves the samples of the later edges as they are. -/
@[simp] theorem afterEdge_inputs (p : PortSample) (s : State) : (afterEdge p s).inputs = s.inputs := by
  unfold afterEdge
  split
  · rfl
  · cases decodeCmd p.cmd <;> rfl

/-- No steps end where they began. -/
theorem core_run_zero (s : State) : Host.Core.run Sys2Proof.core 0 s = .next s := rfl

/-- A run whose first edge is known. -/
theorem core_run_cons {s : State} {p : PortSample} {rest : List PortSample} (n : Nat) (h : s.inputs = p :: rest) :
    Host.Core.run Sys2Proof.core (n + 1) s =
      Host.Core.run Sys2Proof.core n (afterEdge p { s with inputs := rest }) := by
  have hs : Sys2Proof.core.step s = .next (afterEdge p { s with inputs := rest }) := step_cons h
  exact (Host.Core.run.eq_2 Sys2Proof.core s n).trans (by rw [hs])

/-- A run stops where no port sample is left. -/
theorem core_run_nil {s : State} (n : Nat) (h : s.inputs = []) :
    Host.Core.run Sys2Proof.core (n + 1) s = .fault .noClockEdge := by
  have hs : Sys2Proof.core.step s = .fault .noClockEdge := step_nil h
  exact (Host.Core.run.eq_2 Sys2Proof.core s n).trans (by rw [hs])

end Sys2Proof.Machine
end

