-- ==== Sys2Proof/Laws/Telemetry.lean ====
section
/-!
SUPPORT. The consumer's view: one lemma per field, and what the view can be.
-/

namespace Sys2Proof.Machine

open Sys2Proof

@[simp] theorem telemetryOf_syncByte (r : ResultRecord) : (telemetryOf r).syncByte = r.sync := rfl
@[simp] theorem telemetryOf_deviceId (r : ResultRecord) : (telemetryOf r).deviceId = r.id := rfl
@[simp] theorem telemetryOf_messageType (r : ResultRecord) : (telemetryOf r).messageType = r.msgType := rfl
@[simp] theorem telemetryOf_airGapCm (r : ResultRecord) : (telemetryOf r).airGapCm = r.gap.setWidth 16 := rfl
@[simp] theorem telemetryOf_batteryState (r : ResultRecord) : (telemetryOf r).batteryState = r.batt.setWidth 8 := rfl
@[simp] theorem telemetryOf_intervalFlag (r : ResultRecord) : (telemetryOf r).intervalFlag = r.intv.setWidth 8 := rfl
@[simp] theorem telemetryOf_rainFlag (r : ResultRecord) : (telemetryOf r).rainFlag = r.rain.setWidth 16 := rfl
@[simp] theorem telemetryOf_checksum (r : ResultRecord) : (telemetryOf r).checksum = r.chk := rfl
@[simp] theorem telemetryOf_checksumValid (r : ResultRecord) : (telemetryOf r).checksumValid = r.chkOk := rfl

/-- The temperature is the signed register over `TEMP_SCALE`. -/
@[simp] theorem telemetryOf_temperatureC (r : ResultRecord) :
    (telemetryOf r).temperatureC = (r.tempDc.toInt : Rat) / (tempScale : Rat) := rfl

/-- A view that holds a frame is the widened record, under OK or CHKBAD. -/
theorem telemetry_cases {s : State} {f : TelemetryFrame} (h : telemetry s = some f) :
    f = telemetryOf s.res ∧ (resCode s = .ok ∨ resCode s = .chkbad) := by
  unfold telemetry at h
  cases hc : resCode s <;> rw [hc] at h <;> cases h <;> simp

end Sys2Proof.Machine
end

