-- ==== Sys2Proof/Tests/Slice0.lean ====
section
/-!
SUPPORT. Tests. Expected values are the spec's own: 95_test_vectors.md and the tables of the section files. The second
part holds one witness for the hypotheses of each statement that has some.
-/

namespace Sys2Proof.Tests

open Sys2Proof Sys2Proof.Machine Sys2Proof.Safety

/-! ### What is refused as ill formed -/

theorem test_word_8_is_no_command_word : isCommandWord 8 = false ∧ isCommandWord 7 = true := by decide
theorem test_symbol_2_is_no_bit : isBitSequence [1, 2] = false ∧ isBitSequence [1, 0] = true := by decide
theorem test_one_byte_is_no_checksum_input : isChecksumInput [0#8] = false := by decide
theorem test_word_8_is_refused_by_name : decodeWord 8 = .error .wordTooWide := by decide
theorem test_symbol_2_is_refused_by_name : bitsOfSymbols [1, 2] = .error .nonBinarySymbol := by decide
theorem test_one_byte_is_refused_by_name : xorCheck [0#8] = .error .shortByteSequence := by rfl
theorem test_every_command_is_well_formed (d : Bool) :
    Instr.wellFormed .nop ∧ Instr.wellFormed (.shift d) ∧ Instr.wellFormed .clear ∧ Instr.wellFormed .decode := by
  simp [Instr.wellFormed]

/-! ### Decoding: the words of 30_encoding.md R51, bit by bit -/

theorem test_decode_nop : decodeCmd 0b000#3 = .nop ∧ decodeCmd 0b001#3 = .nop := by decide
theorem test_decode_shift : decodeCmd 0b010#3 = .shift false ∧ decodeCmd 0b011#3 = .shift true := by decide
theorem test_decode_clear : decodeCmd 0b100#3 = .clear ∧ decodeCmd 0b101#3 = .clear := by decide
theorem test_decode_decode : decodeCmd 0b110#3 = .decode ∧ decodeCmd 0b111#3 = .decode := by decide

/-- The words of R62's syntax table. -/
theorem test_encode : [Instr.nop, .shift false, .shift true, .clear, .decode].map encode = [0, 2, 3, 4, 6] := by decide

theorem test_table_words :
    [0, 2, 3, 4, 6].map (decodeTableWord 8) =
      [some .nop, some (.shift false), some (.shift true), some .clear, some .decode] := by decide

/-- P1's encoding (95_test_vectors.md section 3), read as one octal number. -/
theorem test_p1_encoding :
    (programWords [.frame68 #v[0xf, 0xb, 0xb, 0x1, 0x1, 0x9, 0x0, 0x2, 0x8, 0x8, 0x0, 0x5, 0x2, 0x0, 0x0, 0x6, 0xf]]).foldl
        (fun a w => 8 * a + w.toNat) 0 =
      0o4333333233323322232223223222223222223222322223232232222222222233233336 := by decide +kernel

/-! ### The functions: vectors X4, X6, X7 and W1 -/

theorem test_xor_check_one_flip :
    xorCheck [0xAF, 0x3B, 0x11, 0x90, 0x28, 0x80, 0x52, 0x00, 0x6F] = .ok false := by rfl
theorem test_xor_check_cancelling_flips :
    xorCheck [0xAF, 0xBA, 0x10, 0x90, 0x28, 0x80, 0x52, 0x00, 0x6F] = .ok true := by rfl

/-- The 68 bits of W1, digit by digit as the spec writes them. -/
def w1Bits : List Bool := digitsBits [0xf, 0xb, 0xb, 0x1, 0x1, 0x9, 0x0, 0x2, 0x8, 0x8, 0x0, 0x5, 0x2, 0x0, 0x0, 0x6, 0xf]

theorem test_w1_bits_start : w1Bits.take 12 = [true, true, true, true, true, true, false, true, true, true, false, true] := by
  decide
theorem test_decode_fn_w1 : decodeFn .v68 w1Bits = .frame 0xAFBB1190288052006F#72 := by decide

/-! ### The commands, one step each -/

/-- A state after reset with a given capture. -/
def captured (v : Variant) (cap : Capture) (cnt : Count) : State :=
  { State.reset with cap := cap, cnt := cnt, build := { variant := v, aux := defaultAux } }

/-- The state that a meaning answers, or the state after reset. -/
def nextOf (o : Host.Outcome State Fault Refusal) : State :=
  match o with
  | .next t => t
  | .fault _ => State.reset
  | .refused _ => State.reset

/-- The end state of D1: program P1's state before its DECODE, decoded. -/
def afterD1 : State := nextOf (exec .decode (captured .v68 0xFDD88904110A4006F#68 68#8))

/-- D1. -/
theorem test_decode_d1 :
    afterD1.res =
      { errLen := false, frame := 0xAFBB1190288052006F#72, sync := 0xAF#8, syncOk := true, id := 0xBB#8,
        msgType := 0x11#8, gap := 146#12, batt := 8#4, tempRaw := 600#12, tempDc := 200#13, intv := 0#4,
        rain := 0#8, chk := 0x6F#8, chkCalc := 0x6F#8, chkOk := true } ∧
      resCode afterD1 = .ok := by decide

/-- P2 under `V64`, 67 bits: the record of D1. -/
theorem test_decode_p2 : (nextOf (exec .decode (captured .v64 0x5DD88904110A4006F#68 67#8))).res = afterD1.res := by decide

/-- D18, the whole field map; each nibble of its digits reversed by hand. -/
theorem test_record_d18 :
    decodeCapture { variant := .v68, aux := defaultAux } 0xF84C2A6E195D3B7AF#68 68#8 =
      { errLen := false, frame := 0xAF123456789ABCDE5F#72, sync := 0xAF#8, syncOk := true, id := 0x12#8,
        msgType := 0x34#8, gap := 0x657#12, batt := 8#4, tempRaw := 0xCB9#12, tempDc := 2857#13, intv := 0xA#4,
        rain := 0xDE#8, chk := 0x5F#8, chkCalc := 0x5F#8, chkOk := true } := by decide

/-- D12: the lowest temperature code, −40.0 °C. -/
theorem test_temperature_d12 : (tempDc 0xAFBB119028000000BD#72).toInt = -400 := by decide

/-- W1 and D18 as a consumer reads them: 10_state.md R20's column on the records of 95_test_vectors.md. -/
theorem test_telemetry_w1 :
    telemetry afterD1 =
      some { syncByte := 0xAF#8, deviceId := 0xBB#8, messageType := 0x11#8, airGapCm := 146#16, batteryState := battOk,
             temperatureC := 20, intervalFlag := 0#8, rainFlag := 0#16, checksum := 0x6F#8, checksumValid := true } := by
  decide +kernel

theorem test_telemetry_d18 :
    telemetryOf (frameRecord defaultAux 0xAF123456789ABCDE5F#72) =
      { syncByte := 0xAF#8, deviceId := 0x12#8, messageType := 0x34#8, airGapCm := 1623#16, batteryState := 8#8,
        temperatureC := 2857 / 10, intervalFlag := 0xA#8, rainFlag := 0xDE#16, checksum := 0x5F#8,
        checksumValid := true } := by
  decide +kernel

/-- K1. -/
theorem test_nop_k1 : nextOf (exec .nop afterD1) = { afterD1 with resStrobe := false } := by decide

/-- The last SHIFT of K2. -/
theorem test_shift_k2 : (nextOf (exec (.shift true) (captured .v68 6#68 3#8))).cap = 0xD#68 := by decide

/-- K3, at the saturated counter. -/
theorem test_shift_k3 : (nextOf (exec (.shift true) (captured .v68 0#68 255#8))).cnt = 255#8 := by decide

/-- K4. -/
theorem test_clear_k4 :
    nextOf (exec .clear { afterD1 with cap := 0x3FF#68, cnt := 10#8, resStrobe := false }) =
      { afterD1 with resStrobe := false } := by decide

/-- K8: reset and DECODE in one step. -/
theorem test_reset_step_k8 :
    nextOf (step { afterD1 with inputs := [{ rst := true, cmd := 6#3 }] }) = State.reset := by decide

/-- The host's loader: the word 6 runs as DECODE at the next edge; after reset that is a LENERR (D6). -/
theorem test_fetch_word_decode : resCode (nextOf (step (State.reset.withFetchWord 8 6))) = .lenerr := by decide

/-! ### Witnesses: concrete values that meet the hypotheses of each statement -/

/-- A state after reset with port samples waiting. -/
def waiting (v : Variant) (ps : List PortSample) : State :=
  { State.reset with build := { variant := v, aux := defaultAux }, inputs := ps }

theorem witness_DataBitIgnoredOutsideShift : (0b11#2 : BitVec 2) ≠ 0b01#2 ∧ (0b00#2 : BitVec 2) ≠ 0b01#2 := by decide

theorem witness_OnlyThreeBitWordsDecode : 8 ≤ 8 := by decide

theorem witness_NonBinaryElementsAreRefused : ∃ n, n ∈ [1, 2] ∧ 2 ≤ n := ⟨2, by decide⟩

theorem witness_XorFoldIsOrderFree : List.Perm [0xAF#8, 0xBB#8] [0xBB#8, 0xAF#8] := by decide

theorem witness_ChecksumDetectsEverySingleBitFlip :
    xorCheck [1#8, 1#8] = .ok true ∧ 7 < 8 ∧ 1 < [1#8, 1#8].length ∧ 0 < [1#8, 1#8].length ∧ 0 ≠ 1 := by
  exact ⟨rfl, by decide⟩

theorem witness_ReceivedNibblesBecomeDigits :
    decodeFn .v68 (List.replicate 68 false) = .frame 0xA00000000000000000#72 ∧
      decodeFn .v64 (List.replicate 64 false) = .frame 0xAF0000000000000000#72 ∧ 3 < 4 := by decide

theorem witness_DecodingATransmissionGivesItsFrame :
    digit 0xA00000000000000000#72 0 = 0xA#4 ∧ digit 0xAFBB1190288052006F#72 0 = 0xA#4 ∧
      digit 0xAFBB1190288052006F#72 1 = 0xF#4 := by decide

theorem witness_TransmittingADecodedFrameGivesItsBits :
    decodeFn .v68 w1Bits = .frame 0xAFBB1190288052006F#72 ∧
      decodeFn .v64 w1Bits = .frame 0xAFBB1190288052006F#72 := by decide

theorem witness_V64TrimsToTheLast64Bits :
    64 ≤ (List.replicate 64 true).length ∧ 64 ≤ (List.replicate 65 true).length ∧
      decodeFn .v64 (List.replicate 63 true) = .lenErr := by decide

theorem witness_V68AcceptsA68BitTransmission :
    (List.replicate 68 true).length ≤ 68 ∧ (List.replicate 67 true).length ≤ 68 := by decide

theorem witness_V64LeadingBitsAreHarmless : 64 ≤ (List.replicate 64 true).length := by decide

theorem witness_FrameStringsAndFramesCorrespond : (List.replicate 18 0xA#4).length = 18 := by decide

theorem witness_ShiftMovesEveryBitUp : 0 < 1 ∧ 1 < 68 ∧ 0 < 67 ∧ 67 < 68 := by decide

theorem witness_DecodePublishesTheRecord :
    Accepts .v68 68#8 ∧ Accepts .v64 64#8 ∧ Accepts .v64 255#8 ∧ ¬ Accepts .v68 67#8 ∧ ¬ Accepts .v64 63#8 ∧
      (captured .v68 0#68 68#8).build.aux = defaultAux := by
  unfold Accepts; decide

theorem witness_StepRunsTheDecodedCommand :
    (waiting .v68 [{ rst := false, cmd := 3#3 }]).inputs = { rst := false, cmd := 3#3 } :: [] := rfl

theorem witness_ResetStepClearsEveryRegister :
    { afterD1 with inputs := [{ rst := true, cmd := 6#3 }] }.inputs = { rst := true, cmd := 6#3 } :: [] := rfl

theorem witness_NoEdgeEverStopsTheBlock :
    (waiting .v64 [{ rst := true, cmd := 0#3 }]).inputs = { rst := true, cmd := 0#3 } :: [] ∧
      State.reset.inputs = [] := ⟨rfl, rfl⟩

theorem witness_StrobeMarksExactlyTheDecodeSteps :
    (waiting .v68 [{ rst := false, cmd := 7#3 }]).inputs = { rst := false, cmd := 7#3 } :: [] ∧
      step (waiting .v68 [{ rst := false, cmd := 7#3 }]) =
        .next (afterEdge { rst := false, cmd := 7#3 } (waiting .v68 [])) := ⟨rfl, rfl⟩

theorem witness_HaveMarksADecodeSinceReset :
    (waiting .v68 [{ rst := false, cmd := 6#3 }]).inputs = [{ rst := false, cmd := 6#3 }] ++ [] ∧
      RunsTo 1 (waiting .v68 [{ rst := false, cmd := 6#3 }])
        (afterEdge { rst := false, cmd := 6#3 } (waiting .v68 [])) := ⟨rfl, rfl⟩

/-- A decoded frame in the record, and one more step. -/
theorem witness_EveryStepKeepsTheRecordInvariant :
    RecordInv { afterD1 with inputs := [{ rst := false, cmd := 0#3 }] } ∧
      step { afterD1 with inputs := [{ rst := false, cmd := 0#3 }] } =
        .next (afterEdge { rst := false, cmd := 0#3 } afterD1) :=
  ⟨⟨fun h => absurd h (by decide), fun _ _ => rfl, fun h => absurd h (by decide)⟩, rfl⟩

theorem witness_EveryStepKeepsTheCaptureInvariant :
    Captured { captured .v68 0xD#68 4#8 with inputs := [{ rst := false, cmd := 3#3 }] } [true, true, false, true] ∧
      step { captured .v68 0xD#68 4#8 with inputs := [{ rst := false, cmd := 3#3 }] } =
        .next (afterEdge { rst := false, cmd := 3#3 } (captured .v68 0xD#68 4#8)) :=
  ⟨by unfold Captured; decide, rfl⟩

theorem witness_CaptureHoldsTheReceivedBitsOverAnyRun :
    Captured (waiting .v68 [{ rst := false, cmd := 3#3 }, { rst := false, cmd := 4#3 }]) [] ∧
      (waiting .v68 [{ rst := false, cmd := 3#3 }, { rst := false, cmd := 4#3 }]).inputs =
        [{ rst := false, cmd := 3#3 }, { rst := false, cmd := 4#3 }] ++ [] :=
  ⟨by unfold Captured; decide, rfl⟩

/-- P1's state before its DECODE has captured the 68 bits of W1. -/
theorem witness_DecodeAgreesWithTheDecodeFunction : Captured (captured .v68 0xFDD88904110A4006F#68 68#8) w1Bits := by
  unfold Captured; decide

theorem witness_OneTransmissionPublishesItsRecord :
    (∀ p ∈ [commandSample (.shift true), commandSample .nop], feeds p = true) ∧
      (waiting .v64
          [commandSample .clear, commandSample (.shift true), commandSample .nop, commandSample .decode]).inputs =
        commandSample .clear :: [commandSample (.shift true), commandSample .nop] ++ commandSample .decode :: [] :=
  ⟨by decide, rfl⟩

theorem witness_FrameLinePublishesItsDigits :
    (waiting .v68 (lineSamples (.frame68 (Vector.replicate 17 5#4)))).build.variant = .v68 ∧
      (waiting .v68 (lineSamples (.frame68 (Vector.replicate 17 5#4)))).inputs =
        lineSamples (.frame68 (Vector.replicate 17 5#4)) ++ [] ∧
      (waiting .v64 (lineSamples (.frame64 (Vector.replicate 16 5#4)))).build.variant = .v64 ∧
      (waiting .v64 (lineSamples (.frame64 (Vector.replicate 16 5#4)))).inputs =
        lineSamples (.frame64 (Vector.replicate 16 5#4)) ++ [] :=
  ⟨rfl, (List.append_nil _).symm, rfl, (List.append_nil _).symm⟩

/-- A CLEAR, a SHIFT and a DECODE from two different states. -/
theorem witness_DecodeForgetsWhatCameBeforeEmptying :
    empties (commandSample .clear) = true ∧ isDecodeStep (commandSample .decode) = true ∧
      afterD1.build = State.reset.build ∧
      RunsTo 3 { afterD1 with inputs := [commandSample .clear, commandSample (.shift true), commandSample .decode] }
        (afterEdge (commandSample .decode)
          (afterEdge (commandSample (.shift true)) (afterEdge (commandSample .clear) afterD1))) ∧
      RunsTo 3 (waiting .v68 [commandSample .clear, commandSample (.shift true), commandSample .decode])
        (afterEdge (commandSample .decode)
          (afterEdge (commandSample (.shift true)) (afterEdge (commandSample .clear) State.reset))) :=
  ⟨by decide, by decide, rfl, rfl, rfl⟩

/-- Two captures of different contents, and a SHIFT each. -/
theorem witness_CaptureIsObservedOnlyThroughDecode :
    outputs { captured .v68 0#68 0#8 with inputs := [commandSample (.shift true)] } =
        outputs { captured .v64 5#68 3#8 with inputs := [commandSample (.shift true)] } ∧
      (∀ p ∈ [commandSample (.shift true)], isDecodeStep p = false) ∧
      RunsTo 1 { captured .v68 0#68 0#8 with inputs := [commandSample (.shift true)] }
        (afterEdge (commandSample (.shift true)) (captured .v68 0#68 0#8)) ∧
      RunsTo 1 { captured .v64 5#68 3#8 with inputs := [commandSample (.shift true)] }
        (afterEdge (commandSample (.shift true)) (captured .v64 5#68 3#8)) :=
  ⟨rfl, by decide, rfl, rfl⟩

theorem witness_ResultStaysUntilDecodeOrReset :
    (∀ q ∈ commandSample .clear :: [commandSample (.shift true)], keepsRecord q = true) ∧
      { afterD1 with inputs := [commandSample .clear, commandSample (.shift true)] }.inputs =
        commandSample .clear :: [commandSample (.shift true)] ++ [] := ⟨by decide, rfl⟩

theorem witness_IdleStepsKeepTheState :
    (∀ q ∈ commandSample .nop :: [{ rst := false, cmd := 1#3 }], q.rst = false ∧ decodeCmd q.cmd = .nop) ∧
      { afterD1 with inputs := [commandSample .nop, { rst := false, cmd := 1#3 }] }.inputs =
        commandSample .nop :: [{ rst := false, cmd := 1#3 }] ++ [] := ⟨by decide, rfl⟩

theorem witness_CounterSaturatesAt255 :
    { captured .v64 0#68 254#8 with inputs := (shifts [true, false]).map commandSample }.inputs =
      (shifts [true, false]).map commandSample ++ [] := rfl

theorem witness_DecodeOfAnEmptyCaptureIsALengthError :
    empties (commandSample .decode) = true ∧ isDecodeStep (commandSample .decode) = true ∧
      { afterD1 with inputs := [commandSample .decode, commandSample .decode] }.inputs =
        commandSample .decode :: commandSample .decode :: [] := ⟨by decide, by decide, rfl⟩

/-- One state for each row of R33: NONE, OK, CHKBAD and LENERR. -/
theorem witness_ResultCodeFollowsItsTable :
    State.reset.resHave = false ∧
      (afterD1.resHave = true ∧ afterD1.res.errLen = false ∧ afterD1.res.chkOk = true) ∧
      (let s := nextOf (exec .decode (captured .v68 0#68 68#8))
       s.resHave = true ∧ s.res.errLen = false ∧ s.res.chkOk = false) ∧
      (let s := nextOf (exec .decode (captured .v68 0#68 0#8))
       s.resHave = true ∧ s.res.errLen = true) := by decide

theorem witness_LengthErrorComesFirst :
    Accepts (captured .v68 0#68 68#8).build.variant (captured .v68 0#68 68#8).cnt ∧
      ¬ Accepts (captured .v64 0#68 63#8).build.variant (captured .v64 0#68 63#8).cnt := by
  unfold Accepts captured; decide

theorem witness_ConsumerReadsOnlyDecodedFrames :
    State.reset.resHave = false ∧
      (nextOf (exec .decode State.reset)).res.errLen = true ∧
      Captured (captured .v68 0xFDD88904110A4006F#68 68#8) w1Bits ∧
      decodeFn (captured .v68 0xFDD88904110A4006F#68 68#8).build.variant w1Bits = .frame 0xAFBB1190288052006F#72 ∧
      Captured (captured .v64 0#68 0#8) [] ∧ decodeFn (captured .v64 0#68 0#8).build.variant [] = .lenErr := by
  unfold Captured; decide

theorem witness_ParametersNeverChange :
    RunsTo 1 (waiting .v64 [commandSample .decode]) (afterEdge (commandSample .decode) (waiting .v64 [])) := rfl

end Sys2Proof.Tests
end

section
/-!
PROOFS. The strobe and the result code (10_state.md R22, R33): what a clock edge writes to `res_strobe`, and one
equation of `res_code` per row of its table.
-/

namespace Sys2Proof.Proofs

open Sys2Proof Sys2Proof.Machine Sys2Proof.Safety

/-- DECODE is the command of the operation code 3, whatever `din` is (30_encoding.md R51, R52). -/
theorem decodeCmd_eq_decode_iff (w : Cmd) : decodeCmd w = .decode ↔ cmdOp w = 0b11#2 := by
  revert w; decide

theorem isDecodeStep_iff (p : PortSample) : isDecodeStep p = true ↔ p.rst = false ∧ cmdOp p.cmd = 0b11#2 := by
  simp [isDecodeStep, decodeCmd_eq_decode_iff]

/-- The state a step leads to, once its port sample is known. -/
theorem eq_afterEdge_of_step {s t : State} {p : PortSample} {rest : List PortSample} (hin : s.inputs = p :: rest)
    (hstep : step s = .next t) : t = afterEdge p { s with inputs := rest } := by
  rw [step_cons hin] at hstep
  cases hstep
  rfl

/-- Every edge writes the strobe: 1 under a DECODE, 0 under a reset and every other command (R22). -/
@[simp] theorem afterEdge_resStrobe (p : PortSample) (s : State) : (afterEdge p s).resStrobe = isDecodeStep p := by
  cases hrst : p.rst with
  | true => simp [afterEdge_reset hrst, isDecodeStep, hrst]
  | false =>
    cases hcmd : decodeCmd p.cmd with
    | nop => simp [afterEdge_nop hrst hcmd, isDecodeStep, hcmd]
    | shift d => simp [afterEdge_shift hrst hcmd, isDecodeStep, hcmd]
    | clear => simp [afterEdge_clear hrst hcmd, isDecodeStep, hcmd]
    | decode => simp [afterEdge_decode hrst hcmd, isDecodeStep, hrst, hcmd]

/-- Settles O33: an edge writes 1 to the strobe exactly when its sample is a DECODE step. -/
theorem strobeMarksExactlyTheDecodeSteps : Obligations.StrobeMarksExactlyTheDecodeSteps := by
  refine ⟨reset_resStrobe, fun s t p rest hin hstep => ?_⟩
  rw [eq_afterEdge_of_step hin hstep, afterEdge_resStrobe, isDecodeStep_iff]

/-! `res_code`, row by row. -/

theorem resCode_of_not_have {s : State} (hhave : s.resHave = false) : resCode s = .none := by
  simp [resCode, hhave]

theorem resCode_of_chkOk {s : State} (hhave : s.resHave = true) (hlen : s.res.errLen = false)
    (hchk : s.res.chkOk = true) : resCode s = .ok := by
  simp [resCode, hhave, hlen, hchk]

theorem resCode_of_not_chkOk {s : State} (hhave : s.resHave = true) (hlen : s.res.errLen = false)
    (hchk : s.res.chkOk = false) : resCode s = .chkbad := by
  simp [resCode, hhave, hlen, hchk]

theorem resCode_of_errLen {s : State} (hhave : s.resHave = true) (hlen : s.res.errLen = true) :
    resCode s = .lenerr := by
  simp [resCode, hhave, hlen]

/-- The sync flag is no input of `res_code`. -/
@[simp] theorem resCode_set_syncOk (s : State) (b : Bool) :
    resCode { s with res := { s.res with syncOk := b } } = resCode s := rfl

/-- Settles O49: one equation per row of the table; the rows exclude each other by their conditions. -/
theorem resultCodeFollowsItsTable : Obligations.ResultCodeFollowsItsTable := by
  have after_reset : resCode State.reset = .none := resCode_of_not_have reset_resHave
  refine ⟨fun s => ?_, rfl, rfl, rfl, rfl, after_reset⟩
  exact ⟨resCode_of_not_have, resCode_of_chkOk, resCode_of_not_chkOk, resCode_of_errLen, resCode_set_syncOk s⟩

end Sys2Proof.Proofs
end

section
/-!
PROOFS. Bits, digits and fields (20_memory.md R38, R39, R43): the digits of a decoded frame, each received bit's place
in it, and the value of a field of several digits.
-/

namespace Sys2Proof.Proofs

open Sys2Proof Sys2Proof.Machine

/-- Digit `k` of the frame of a full digit string is the string's digit `k` (R41, 41_frame_decode.md R77). -/
theorem digit_frameOfDigits {ds : List Digit} (hlen : ds.length = 18) (k : Fin 18) :
    digit (frameOfDigits ds) k = ds.getD k.val 0#4 := by
  apply BitVec.eq_of_getLsbD_eq
  intro i hi
  have hdiv : (68 - 4 * k.val + i) / 4 = 17 - k.val := by omega
  have hmod : (68 - 4 * k.val + i) % 4 = i := by omega
  have hrev : ds.length - 1 - (17 - k.val) = k.val := by omega
  rw [getLsbD_digit _ _ _ hi, getLsbD_frameOfDigits _ _ (by omega), hdiv, hmod, List.getD_reverse _ (by omega), hrev]

/-- The trim of `V64` keeps the last 64 bits of any list, or all of a shorter one (R74). -/
theorem trim64_eq_drop (s : List Bool) : trim64 s = s.drop (s.length - 64) := by
  induction s with
  | nil => rfl
  | cons b t ih =>
    rw [trim64, List.length_cons]
    split
    · next hlong =>
      have hlong : 64 < t.length + 1 := hlong
      rw [ih, show t.length + 1 - 64 = t.length - 64 + 1 by omega, List.drop_succ_cons]
    · next hshort =>
      have hshort : ¬ 64 < t.length + 1 := hshort
      rw [show t.length + 1 - 64 = 0 by omega, List.drop_zero]

theorem length_trim64 {s : List Bool} (hlen : 64 ≤ s.length) : (trim64 s).length = 64 := by
  rw [trim64_eq_drop, List.length_drop]
  omega

/-- When `V68` decodes a list, and to which frame (R72, R75 to R77). -/
theorem decodeFn_v68_eq_frame_iff (s : List Bool) (F : Frame) :
    decodeFn .v68 s = .frame F ↔
      s.length = 68 ∧ frameOfDigits (prefixDigits .v68 ++ nibbleDigits s) = F := by
  rw [decodeFn]
  split
  · next hacc => simp [show s.length = 68 from hacc]
  · next hrej => simp [show ¬ s.length = 68 from hrej]

/-- When `V64` decodes a list, and to which frame (R73 to R77). -/
theorem decodeFn_v64_eq_frame_iff (s : List Bool) (F : Frame) :
    decodeFn .v64 s = .frame F ↔
      64 ≤ s.length ∧ frameOfDigits (prefixDigits .v64 ++ nibbleDigits (trim64 s)) = F := by
  rw [decodeFn]
  split
  · next hrej => simp [Nat.not_le.2 (show s.length < 64 from hrej)]
  · next hacc => simp [Nat.not_lt.1 (show ¬ s.length < 64 from hacc)]

/-- A decoded frame's digits under `V68`: `a`, then the 17 received nibbles. -/
theorem digit_of_decodeFn_v68 {s : List Bool} {F : Frame} (hdec : decodeFn .v68 s = .frame F) (k : Fin 18) :
    digit F k = (0xA#4 :: nibbleDigits s).getD k.val 0#4 := by
  obtain ⟨hlen, rfl⟩ := (decodeFn_v68_eq_frame_iff s F).1 hdec
  exact digit_frameOfDigits (by simp [prefixDigits, nibbleDigits_length, hlen]) k

/-- A decoded frame's digits under `V64`: `a`, `f`, then the 16 nibbles of the last 64 bits. -/
theorem digit_of_decodeFn_v64 {s : List Bool} {F : Frame} (hdec : decodeFn .v64 s = .frame F) (k : Fin 18) :
    digit F k = (0xA#4 :: 0xF#4 :: nibbleDigits (trim64 s)).getD k.val 0#4 := by
  obtain ⟨hlen, rfl⟩ := (decodeFn_v64_eq_frame_iff s F).1 hdec
  exact digit_frameOfDigits (by simp [prefixDigits, nibbleDigits_length, length_trim64 hlen]) k

/-- Settles O13: past the implied prefix, a decoded frame's digits are the received nibbles, whose bits stand in order
of arrival. -/
theorem receivedNibblesBecomeDigits : Obligations.ReceivedNibblesBecomeDigits := by
  constructor
  · intro s F hdec
    have hlen : s.length = 68 := ((decodeFn_v68_eq_frame_iff s F).1 hdec).1
    refine ⟨digit_of_decodeFn_v68 hdec 0, fun n i hi => ?_⟩
    rw [digit_of_decodeFn_v68 hdec, Fin.val_succ, List.getD_cons_succ, getLsbD_getD_nibbleDigits s n i hi (by omega)]
  · intro s F hdec
    have hlen : 64 ≤ s.length := ((decodeFn_v64_eq_frame_iff s F).1 hdec).1
    have htrim : (trim64 s).length = 64 := length_trim64 hlen
    refine ⟨digit_of_decodeFn_v64 hdec 0, digit_of_decodeFn_v64 hdec 1, fun n i hi => ?_⟩
    rw [digit_of_decodeFn_v64 hdec, Fin.val_succ, Fin.val_succ, List.getD_cons_succ, List.getD_cons_succ,
      getLsbD_getD_nibbleDigits _ n i hi (by omega), trim64_eq_drop, List.getD_eq_getElem?_getD,
      List.getElem?_drop, ← List.getD_eq_getElem?_getD]

/-- A further digit at the low end makes the numeral 16 times as large and adds the digit. -/
theorem toNat_append_digit {w : Nat} (x : BitVec w) (d : Digit) : (x ++ d).toNat = 16 * x.toNat + d.toNat := by
  rw [BitVec.toNat_append, ← Nat.shiftLeft_add_eq_or_of_lt d.isLt, Nat.shiftLeft_eq]
  omega

theorem toNat_digits2 (F : Frame) (p1 p2 : Fin 18) :
    (digits2 F p1 p2).toNat = 16 * (digit F p1).toNat + (digit F p2).toNat :=
  toNat_append_digit (digit F p1) (digit F p2)

theorem toNat_digits3 (F : Frame) (p1 p2 p3 : Fin 18) :
    (digits3 F p1 p2 p3).toNat = 256 * (digit F p1).toNat + 16 * (digit F p2).toNat + (digit F p3).toNat := by
  have happend : (digits3 F p1 p2 p3).toNat = 16 * (digits2 F p1 p2).toNat + (digit F p3).toNat :=
    toNat_append_digit (digits2 F p1 p2) (digit F p3)
  rw [happend, toNat_digits2]
  omega

/-- Settles O20: a field is a concatenation of digits, and each appended digit weighs a sixteenth of the one before. -/
theorem fieldsSpellTheirDigitsInListOrder : Obligations.FieldsSpellTheirDigitsInListOrder :=
  fun F p1 p2 p3 => ⟨rfl, toNat_digits3 F p1 p2 p3, toNat_digits2 F p1 p2⟩

/-- The weights of a nibble's bits in order of arrival (R38). -/
theorem toNat_nibbleDigit (b0 b1 b2 b3 : Bool) :
    (nibbleDigit b0 b1 b2 b3).toNat = b0.toNat * 1 + b1.toNat * 2 + b2.toNat * 4 + b3.toNat * 8 := by
  revert b0 b1 b2 b3; decide

/-- Settles O12: the weights over all bits; the vector form is the model's own, and its bits leave in the same order. -/
theorem firstReceivedBitHasWeightOne : Obligations.FirstReceivedBitHasWeightOne :=
  fun b0 b1 b2 b3 => ⟨toNat_nibbleDigit b0 b1 b2 b3, rfl, digitBits_nibbleDigit b0 b1 b2 b3⟩

end Sys2Proof.Proofs
end

section
/-!
PROOFS. The command word (30_encoding.md R51, R52): what each operation code decodes to under either data bit, and the
step as a function of the decoded command.
-/

namespace Sys2Proof.Proofs

open Sys2Proof Sys2Proof.Machine

@[simp] theorem cmdOp_cmdWord (op : BitVec 2) (d : Bool) : cmdOp (cmdWord op d) = op := by
  revert op d; decide

@[simp] theorem cmdDin_cmdWord (op : BitVec 2) (d : Bool) : cmdDin (cmdWord op d) = d := by
  revert op d; decide

/-! R51's table, row by row: only the row of SHIFT names the data bit. -/

@[simp] theorem decodeCmd_cmdWord_nop (d : Bool) : decodeCmd (cmdWord 0b00#2 d) = .nop := by
  simp [decodeCmd]

@[simp] theorem decodeCmd_cmdWord_shift (d : Bool) : decodeCmd (cmdWord 0b01#2 d) = .shift d := by
  simp [decodeCmd]

@[simp] theorem decodeCmd_cmdWord_clear (d : Bool) : decodeCmd (cmdWord 0b10#2 d) = .clear := by
  simp [decodeCmd]

@[simp] theorem decodeCmd_cmdWord_decode (d : Bool) : decodeCmd (cmdWord 0b11#2 d) = .decode := by
  simp [decodeCmd]

/-- Settles O1: the eight words are R51's four operation codes, each with the data bit 0 and 1. -/
theorem eachWordDecodesToItsCommand : Obligations.EachWordDecodesToItsCommand :=
  ⟨decodeCmd_cmdWord_nop false, decodeCmd_cmdWord_nop true,
    decodeCmd_cmdWord_shift false, decodeCmd_cmdWord_shift true,
    decodeCmd_cmdWord_clear false, decodeCmd_cmdWord_clear true,
    decodeCmd_cmdWord_decode false, decodeCmd_cmdWord_decode true⟩

/-- Outside SHIFT the data bit takes no part in decoding (R52). -/
theorem decodeCmd_cmdWord_of_ne_shift {op : BitVec 2} (hop : op ≠ 0b01#2) (d e : Bool) :
    decodeCmd (cmdWord op d) = decodeCmd (cmdWord op e) := by
  have hcodes : op = 0b00#2 ∨ op = 0b10#2 ∨ op = 0b11#2 := by
    revert op; decide
  obtain rfl | rfl | rfl := hcodes
  · rw [decodeCmd_cmdWord_nop, decodeCmd_cmdWord_nop]
  · rw [decodeCmd_cmdWord_clear, decodeCmd_cmdWord_clear]
  · rw [decodeCmd_cmdWord_decode, decodeCmd_cmdWord_decode]

/-- A step reads `cmd` only through the command it decodes to. -/
theorem step_congr_decodeCmd {v w : Cmd} (hdec : decodeCmd v = decodeCmd w) (rst : Bool) (s : State)
    (rest : List PortSample) :
    step { s with inputs := { rst := rst, cmd := v } :: rest } =
      step { s with inputs := { rst := rst, cmd := w } :: rest } := by
  rw [step_cons rfl, step_cons rfl]
  simp only [afterEdge, hdec]

/-- Settles O3: outside SHIFT the two words of a pair decode alike, and the step follows the decoded command. -/
theorem dataBitIgnoredOutsideShift : Obligations.DataBitIgnoredOutsideShift := by
  intro op s rest hop
  have hdec : decodeCmd (cmdWord op true) = decodeCmd (cmdWord op false) :=
    decodeCmd_cmdWord_of_ne_shift hop true false
  exact ⟨hdec, step_congr_decodeCmd hdec false s rest⟩

end Sys2Proof.Proofs
end

section
/-!
PROOFS. The XOR checksum (40_checksum.md R65 to R67, R70): the fold as a sum over the bytes in any order, the check as
the last byte against the fold of the payload, and the block's nine bytes.
-/

namespace Sys2Proof.Proofs

open Sys2Proof Sys2Proof.Machine

/-- The fold takes concatenation to XOR; R65's other facts follow from this one. -/
theorem xorFold_append (A B : List Byte) : xorFold (A ++ B) = xorFold A ^^^ xorFold B := by
  rw [xorFold, List.foldl_append, xorFold_from, ← xorFold]

theorem xorFold_append_singleton (B : List Byte) (b : Byte) : xorFold (B ++ [b]) = xorFold B ^^^ b := by
  rw [xorFold_append, xorFold_cons, xorFold_nil, BitVec.xor_zero]

/-- The fold is independent of the order of the bytes: swapping two neighbours is one use of commutativity. -/
theorem xorFold_perm {B C : List Byte} (hperm : B.Perm C) : xorFold B = xorFold C := by
  induction hperm with
  | nil => rfl
  | cons b _ ih => rw [xorFold_cons, xorFold_cons, ih]
  | swap a b B =>
    simp only [xorFold_cons]
    rw [← BitVec.xor_assoc, BitVec.xor_comm b a, BitVec.xor_assoc]
  | trans _ _ ih₁ ih₂ => exact ih₁.trans ih₂

/-- A byte at the head of a list twice leaves the fold of the rest. -/
theorem xorFold_cons_cons_self (b : Byte) (B : List Byte) : xorFold (b :: b :: B) = xorFold B := by
  rw [xorFold_cons, xorFold_cons, ← BitVec.xor_assoc, BitVec.xor_self, BitVec.zero_xor]

/-- A byte that appears twice, wherever it stands, cancels: both can be brought to the head. -/
theorem xorFold_cancel_repeated (A B C : List Byte) (b : Byte) :
    xorFold (A ++ b :: B ++ b :: C) = xorFold (A ++ B ++ C) := by
  have hfront : (A ++ b :: B ++ b :: C).Perm (b :: b :: (A ++ B ++ C)) :=
    List.perm_middle.trans ((List.perm_middle.append_right C).cons b)
  rw [xorFold_perm hfront, xorFold_cons_cons_self]

/-- Settles O7: the fold of a concatenation gives the further byte, and its invariance under permutation the
cancelling. -/
theorem xorFoldIsOrderFree : Obligations.XorFoldIsOrderFree :=
  ⟨xorFold_nil, by decide, xorFold_append_singleton, fun _ _ => xorFold_perm, xorFold_cancel_repeated⟩

/-- A sequence of fewer than two bytes has no answer (R67). -/
theorem xorCheck_of_lt_two {B : List Byte} (hshort : B.length < 2) : xorCheck B = .error .shortByteSequence := by
  have hinput : isChecksumInput B = false := decide_eq_false (Nat.not_le.2 hshort)
  rw [xorCheck, hinput, if_neg Bool.false_ne_true]

/-- Settles O9: no byte and one byte are both shorter than two, and a frame lists nine. -/
theorem xorCheckRefusesShortInput : Obligations.XorCheckRefusesShortInput :=
  ⟨xorCheck_of_lt_two (by decide), fun _ => xorCheck_of_lt_two Nat.one_lt_two, frameBytes_length⟩

/-- The check of a non-empty payload and its transmitted checksum (R66). -/
theorem xorCheck_append_singleton {P : List Byte} (hP : P ≠ []) (c : Byte) :
    xorCheck (P ++ [c]) = .ok (xorFold P == c) := by
  have hlen : 2 ≤ (P ++ [c]).length := by
    have := List.length_pos_of_ne_nil hP
    simp; omega
  rw [xorCheck_of_two_le hlen, List.dropLast_concat, List.getLastD_concat]

/-- The bytes of the frame under the checksum: all but the last (R70). -/
def payloadBytes (F : Frame) : List Byte := (frameBytes F).dropLast

theorem frameBytes_eq_payloadBytes_append (F : Frame) : frameBytes F = payloadBytes F ++ [byte F 8] := rfl

/-- The XOR tree is the fold of the payload. -/
theorem xorFold_payloadBytes (F : Frame) : xorFold (payloadBytes F) = chkCalc F := by
  have hbytes : payloadBytes F =
      [byte F 0, byte F 1, byte F 2, byte F 3, byte F 4, byte F 5, byte F 6, byte F 7] := rfl
  rw [hbytes, chkCalc]
  simp only [xorFold_cons, xorFold_nil, BitVec.xor_zero, BitVec.xor_assoc]

/-- The check of a whole frame is the block's comparator (R70). -/
theorem xorCheck_frameBytes (F : Frame) : xorCheck (frameBytes F) = .ok (chkOk F) := by
  have hpayload : payloadBytes F ≠ [] := List.cons_ne_nil _ _
  rw [frameBytes_eq_payloadBytes_append, xorCheck_append_singleton hpayload, xorFold_payloadBytes, chkOk]

/-- Settles O10: the tree and the comparator as the record publishes them, and the check of the listed nine bytes, which
are the frame's bytes. -/
theorem blockChecksumIsXorCheckOfTheFrame : Obligations.BlockChecksumIsXorCheckOfTheFrame :=
  fun _ F => ⟨rfl, rfl, xorCheck_frameBytes F⟩

end Sys2Proof.Proofs
end

section
/-!
PROOFS. The length rule and the trim of `V64` (41_frame_decode.md R73, R74).
-/

namespace Sys2Proof.Proofs

open Sys2Proof Sys2Proof.Machine

/-- When `V64` answers a length error (R73). -/
theorem decodeFn_v64_eq_lenErr_iff (s : List Bool) : decodeFn .v64 s = .lenErr ↔ s.length < 64 := by
  rw [decodeFn]
  split
  · next hrej => simp [show s.length < 64 from hrej]
  · next hacc => simp [show ¬ s.length < 64 from hacc]

/-- A list of 64 bits or fewer has no bit to drop. -/
theorem trim64_of_le {s : List Bool} (hlen : s.length ≤ 64) : trim64 s = s := by
  rw [trim64_eq_drop, Nat.sub_eq_zero_of_le hlen, List.drop_zero]

/-- Of an accepted list `V64` reads the trim alone: the trim is accepted too, and is its own trim. -/
theorem decodeFn_v64_trim64 {s : List Bool} (hlen : 64 ≤ s.length) : decodeFn .v64 (trim64 s) = decodeFn .v64 s := by
  have htrim : (trim64 s).length = 64 := length_trim64 hlen
  have hsame : trim64 (trim64 s) = trim64 s := trim64_of_le htrim.le
  have hframe := (decodeFn_v64_eq_frame_iff s _).2 ⟨hlen, rfl⟩
  rw [hframe, decodeFn_v64_eq_frame_iff, hsame]
  exact ⟨htrim.ge, rfl⟩

/-- Settles O16: the trim is the list of the last 64 bits, and decoding a list is decoding its trim. -/
theorem v64TrimsToTheLast64Bits : Obligations.V64TrimsToTheLast64Bits := by
  refine fun s => ⟨decodeFn_v64_eq_lenErr_iff s, fun hlen => ⟨length_trim64 hlen, trim64_eq_drop s, ?_⟩⟩
  rw [← trim64_eq_drop, decodeFn_v64_trim64 hlen]

end Sys2Proof.Proofs
end

section
/-!
PROOFS. The temperature (41_frame_decode.md R85) and the auxiliary fields (R86 to R88).
-/

namespace Sys2Proof.Proofs

open Sys2Proof Sys2Proof.Machine

@[simp] theorem toInt_tempOffset : tempOffset.toInt = 400 := by decide

/-- A raw code is never negative in the 13 bits of `res_temp_dc`. -/
theorem toInt_setWidth_rawCode (raw : BitVec 12) : (raw.setWidth 13).toInt = raw.toNat := by
  have hnat : (raw.setWidth 13).toNat = raw.toNat := BitVec.toNat_setWidth_of_le (by omega)
  rw [BitVec.toInt_eq_toNat_of_lt (by omega), hnat]

/-- The subtraction of R85 never overflows 13 bits: a raw code is below 4096. -/
theorem not_ssubOverflow_tempOffset (raw : BitVec 12) : ¬ (raw.setWidth 13).ssubOverflow tempOffset = true := by
  simp only [BitVec.ssubOverflow, toInt_setWidth_rawCode, toInt_tempOffset, Bool.or_eq_true, decide_eq_true_iff]
  omega

/-- So the register holds the exact difference. -/
theorem toInt_tempDc (F : Frame) : (tempDc F).toInt = ((tempRaw F).toNat : Int) - 400 := by
  rw [tempDc, BitVec.toInt_sub_of_not_ssubOverflow (not_ssubOverflow_tempOffset _), toInt_setWidth_rawCode,
    toInt_tempOffset]

@[simp] theorem frameRecord_tempRaw (aux : AuxFieldMap) (F : Frame) : (frameRecord aux F).tempRaw = tempRaw F := rfl

@[simp] theorem frameRecord_tempDc (aux : AuxFieldMap) (F : Frame) : (frameRecord aux F).tempDc = tempDc F := rfl

/-- The consumer's temperature is the exact rational of the raw code. -/
theorem temperatureC_telemetryOf_frameRecord (aux : AuxFieldMap) (F : Frame) :
    (telemetryOf (frameRecord aux F)).temperatureC = (((tempRaw F).toNat : Rat) - 400) / 10 := by
  have hscale : (tempScale : Rat) = 10 := Nat.cast_ofNat
  rw [telemetryOf_temperatureC, frameRecord_tempDc, toInt_tempDc, hscale, Int.cast_sub, Int.cast_natCast,
    Int.cast_ofNat]

/-- Settles O21: the register is the raw code less 400 without overflow, and a raw code is at most 4095. -/
theorem temperatureIsRawCodeLess400 : Obligations.TemperatureIsRawCodeLess400 := by
  intro aux F
  have hexact : (tempDc F).toInt = ((tempRaw F).toNat : Int) - 400 := toInt_tempDc F
  have hraw : (tempRaw F).toNat < 4096 := (tempRaw F).isLt
  rw [frameRecord_tempDc, frameRecord_tempRaw]
  exact ⟨hexact, by omega, by omega, temperatureC_telemetryOf_frameRecord aux F⟩

/-- Two neighbouring digits are one slice of the frame (20_memory.md R41). -/
theorem digit_append_digit_of_succ (F : Frame) {p q : Fin 18} (hnext : q.val = p.val + 1) :
    digit F p ++ digit F q = F.extractLsb' (68 - 4 * q.val) 8 :=
  BitVec.extractLsb'_append_extractLsb'_eq_extractLsb' (by omega)

/-- Settles O22: the default map names the digits 9, 11, 14 and 15, and the last two are neighbours. -/
theorem auxiliaryFieldsUnderTheDefaultMap : Obligations.AuxiliaryFieldsUnderTheDefaultMap :=
  fun F => ⟨rfl, rfl, rfl, rfl, rfl, digit_append_digit_of_succ F rfl⟩

end Sys2Proof.Proofs
end

section
/-!
PROOFS. Received elements of a wider type than a bit (41_frame_decode.md R94).
-/

namespace Sys2Proof.Proofs

open Sys2Proof Sys2Proof.Machine

theorem isBitSequence_iff (symbols : List Nat) : isBitSequence symbols = true ↔ ∀ n ∈ symbols, n < 2 := by
  simp only [isBitSequence, List.all_eq_true, decide_eq_true_iff]

theorem bitsOfSymbols_of_isBitSequence {symbols : List Nat} (hbits : isBitSequence symbols = true) :
    bitsOfSymbols symbols = .ok (symbols.map fun n => n == 1) := by
  rw [bitsOfSymbols, if_pos hbits]

theorem bitsOfSymbols_of_not_isBitSequence {symbols : List Nat} (hbits : ¬ isBitSequence symbols = true) :
    bitsOfSymbols symbols = .error .nonBinarySymbol := by
  rw [bitsOfSymbols, if_neg hbits]

theorem isBitSequence_map_toNat (bs : List Bool) : isBitSequence (bs.map Bool.toNat) = true := by
  rw [isBitSequence_iff, List.forall_mem_map]
  exact fun b _ => b.toNat_lt

/-- Settles O6: one number of 2 or more makes a list no bit sequence, and bits are read back one by one. -/
theorem nonBinaryElementsAreRefused : Obligations.NonBinaryElementsAreRefused := by
  constructor
  · rintro symbols ⟨n, hmem, hwide⟩
    have hnot : ¬ isBitSequence symbols = true := fun hbits =>
      absurd ((isBitSequence_iff symbols).1 hbits n hmem) (Nat.not_lt.2 hwide)
    exact bitsOfSymbols_of_not_isBitSequence hnot
  · intro bs
    have hback : ∀ b ∈ bs, ((fun n => n == 1) ∘ Bool.toNat) b = id b := fun b _ => b.toNat_beq_one
    rw [bitsOfSymbols_of_isBitSequence (isBitSequence_map_toNat bs), List.map_map, List.map_congr_left hback,
      List.map_id]

end Sys2Proof.Proofs
end

section
/-!
PROOFS. The four commands (42_commands.md R97 to R100): each one's next state as a composition of the named operations,
and the record of DECODE slice by slice.
-/

namespace Sys2Proof.Proofs

open Sys2Proof Sys2Proof.Machine Sys2Proof.Safety

/-! Each command answers a next state from every state. -/

theorem exec_nop (s : State) : exec .nop s = .next (clearStrobe s) := rfl

theorem exec_shift (d : Bool) (s : State) : exec (.shift d) s = .next (clearStrobe (captureBit d s)) := rfl

theorem exec_clear (s : State) : exec .clear s = .next (clearStrobe (emptyCapture s)) := rfl

theorem exec_decode (s : State) :
    exec .decode s = .next (emptyCapture (publish (decodeCapture s.build s.cap s.cnt) s)) := rfl

/-! The length test and the rebuilt frame of DECODE. -/

/-- The block's comparison of the count as a number is R100's comparison of the register. -/
theorem lengthOk_iff_accepts (v : Variant) (cnt : Count) : lengthOk v cnt = true ↔ Accepts v cnt := by
  cases v with
  | v68 => exact (lengthOk_v68 cnt).trans (BitVec.toNat_inj (y := 68#8))
  | v64 => exact lengthOk_v64 cnt

/-- Two nibbles at one place, one holding the other's bits in reverse. -/
theorem extractLsb'_eq_rev4 {F : Frame} {cap : Capture} {m : Nat}
    (hbits : ∀ i, i < 4 → F.getLsbD (4 * m + i) = cap.getLsbD (4 * m + (3 - i))) :
    F.extractLsb' (4 * m) 4 = rev4 (cap.extractLsb' (4 * m) 4) := by
  apply BitVec.eq_of_getLsbD_eq
  intro i hi
  have hrev : 3 - i < 4 := by omega
  rw [getLsbD_rev4 _ _ hi, BitVec.getLsbD_extractLsb', BitVec.getLsbD_extractLsb', hbits i hi, decide_eq_true hi,
    decide_eq_true hrev]

/-- The block's frame is R78's on all 72 bits: the prefix, and every received nibble reversed at its own place. -/
theorem rebuilt_rebuiltFrame (v : Variant) (cap : Capture) : Rebuilt v cap (rebuiltFrame v cap) := by
  cases v with
  | v68 =>
    have hprefix : (rebuiltFrame .v68 cap).extractLsb' 68 4 = prefixV68 := BitVec.extractLsb'_append_eq_left
    exact ⟨hprefix, fun m hm => extractLsb'_eq_rev4 fun i hi => getLsbD_rebuiltFrame_v68 cap m i hm hi⟩
  | v64 =>
    have hprefix : (rebuiltFrame .v64 cap).extractLsb' 64 8 = prefixV64 := BitVec.extractLsb'_append_eq_left
    exact ⟨hprefix, fun m hm => extractLsb'_eq_rev4 fun i hi => getLsbD_rebuiltFrame_v64 cap m i hm hi⟩

/-! The record of DECODE in R100's slices. -/

/-- The XOR tree over the frame's bytes (40_checksum.md R70) in R100's slices. -/
theorem chkCalc_eq_slicedChecksum (F : Frame) : chkCalc F = slicedChecksum F := rfl

/-- Every field is the slice of its digits or bytes (20_memory.md R41, R42), the auxiliary ones at the digits of the
map. -/
theorem frameRecord_eq_publishedRecord (aux : AuxFieldMap) (F : Frame) :
    frameRecord aux F =
      publishedRecord F (digit F aux.batt) (digit F aux.intv) (digit F aux.rainHigh ++ digit F aux.rainLow) := by
  simp only [frameRecord, publishedRecord, chkOk, chkCalc_eq_slicedChecksum]
  rfl

/-- Under the default map the auxiliary fields are slices too (decision D8). -/
theorem frameRecord_defaultAux_eq_publishedRecord (F : Frame) :
    frameRecord defaultAux F = publishedRecord F (F.extractLsb' 32 4) (F.extractLsb' 24 4) (F.extractLsb' 8 8) := by
  obtain ⟨-, hbatt, -, hintv, -, hrain⟩ := auxiliaryFieldsUnderTheDefaultMap F
  rw [← hbatt, ← hintv, ← hrain]
  exact frameRecord_eq_publishedRecord defaultAux F

/-- Settles O28: DECODE publishes the record of the capture's frame when the length is accepted and the length error
otherwise, and then empties the capture. -/
theorem decodePublishesTheRecord : Obligations.DecodePublishesTheRecord := by
  refine ⟨decodeCmd_cmdWord_decode, fun s => ?_⟩
  have hframe : Accepts s.build.variant s.cnt →
      decodeCapture s.build s.cap s.cnt = frameRecord s.build.aux (rebuiltFrame s.build.variant s.cap) :=
    fun hacc => decodeCapture_accepted ((lengthOk_iff_accepts _ _).2 hacc)
  have herr : ¬ Accepts s.build.variant s.cnt → decodeCapture s.build s.cap s.cnt = lenErrRecord :=
    fun hrej => decodeCapture_rejected (mt (lengthOk_iff_accepts _ _).1 hrej)
  refine ⟨_, rebuiltFrame s.build.variant s.cap, exec_decode s, rebuilt_rebuiltFrame _ _, rfl, rfl, rfl, rfl, rfl, rfl,
    fun hacc => ?_, herr, fun hmap hacc => ?_⟩
  · exact (hframe hacc).trans (frameRecord_eq_publishedRecord _ _)
  · rw [hmap] at hframe
    exact (hframe hacc).trans (frameRecord_defaultAux_eq_publishedRecord _)

/-- Settles O24: `clearStrobe` writes the strobe alone. -/
theorem nopClearsOnlyTheStrobe : Obligations.NopClearsOnlyTheStrobe :=
  ⟨decodeCmd_cmdWord_nop, exec_nop⟩

/-- Settles O25: `captureBit` writes `cap` and `cnt` as R98 does, and `clearStrobe` the strobe. -/
theorem shiftTakesInOneBit : Obligations.ShiftTakesInOneBit :=
  fun d => ⟨decodeCmd_cmdWord_shift d, exec_shift d⟩

/-- Settles O27: `emptyCapture` writes `cap` and `cnt` alone, and `clearStrobe` the strobe. -/
theorem clearEmptiesTheCapture : Obligations.ClearEmptiesTheCapture :=
  ⟨decodeCmd_cmdWord_clear, exec_clear⟩

end Sys2Proof.Proofs
end

section
/-!
PROOFS. What one DECODE reports, and in which order (60_exceptions.md R113): the length error alone, or else the
checksum's verdict in `res_code` and the sync flag beside it.
-/

namespace Sys2Proof.Proofs

open Sys2Proof Sys2Proof.Machine Sys2Proof.Safety

/-! The length error's record carries no frame and no verdict (41_frame_decode.md R95). -/

@[simp] theorem lenErrRecord_frame : lenErrRecord.frame = 0#72 := rfl

@[simp] theorem lenErrRecord_chkOk : lenErrRecord.chkOk = false := rfl

@[simp] theorem lenErrRecord_syncOk : lenErrRecord.syncOk = false := rfl

/-! A decoded frame's record, as far as `res_code` and the flags read it. -/

section
variable (F : Frame) (batt intv : BitVec 4) (rain : BitVec 8)

@[simp] theorem publishedRecord_errLen : (publishedRecord F batt intv rain).errLen = false := rfl

@[simp] theorem publishedRecord_frame : (publishedRecord F batt intv rain).frame = F := rfl

theorem publishedRecord_chkOk_iff :
    (publishedRecord F batt intv rain).chkOk = true ↔ slicedChecksum F = F.extractLsb' 0 8 :=
  beq_iff_eq

theorem publishedRecord_syncOk_iff :
    (publishedRecord F batt intv rain).syncOk = true ↔ F.extractLsb' 64 8 = 0xAF#8 :=
  beq_iff_eq

end

/-! With a right length, `res_code` is the checksum's verdict alone (R33). -/

theorem resCode_eq_ok_iff {s : State} (hhave : s.resHave = true) (hlen : s.res.errLen = false) :
    resCode s = .ok ↔ s.res.chkOk = true := by
  cases hchk : s.res.chkOk with
  | true => simp [resCode_of_chkOk hhave hlen hchk]
  | false => simp [resCode_of_not_chkOk hhave hlen hchk]

theorem resCode_eq_chkbad_iff {s : State} (hhave : s.resHave = true) (hlen : s.res.errLen = false) :
    resCode s = .chkbad ↔ ¬ s.res.chkOk = true := by
  cases hchk : s.res.chkOk with
  | true => simp [resCode_of_chkOk hhave hlen hchk]
  | false => simp [resCode_of_not_chkOk hhave hlen hchk]

/-- Settles O50, from the record that DECODE publishes: the length error's record leaves `res_code` its LENERR row
only, and a frame's record leaves the choice between the OK and CHKBAD rows to the checksum. -/
theorem lengthErrorComesFirst : Obligations.LengthErrorComesFirst := by
  intro s
  obtain ⟨t, F, hexec, -, -, -, hhave, -, -, -, hacc, hrej, -⟩ := decodePublishesTheRecord.2 s
  refine ⟨t, hexec, fun hwrong => ?_, fun hright => ?_⟩
  · have hres : t.res = lenErrRecord := hrej hwrong
    have hlen : t.res.errLen = true := by rw [hres, lenErrRecord_errLen]
    exact ⟨resCode_of_errLen hhave hlen, by simp [hres]⟩
  · have hres := hacc hright
    have hlen : t.res.errLen = false := by rw [hres, publishedRecord_errLen]
    have hframe : t.res.frame = F := by rw [hres, publishedRecord_frame]
    have hchk : t.res.chkOk = true ↔ slicedChecksum F = F.extractLsb' 0 8 := by rw [hres, publishedRecord_chkOk_iff]
    have hsync : t.res.syncOk = true ↔ F.extractLsb' 64 8 = 0xAF#8 := by rw [hres, publishedRecord_syncOk_iff]
    rw [hframe]
    exact ⟨hlen, (resCode_eq_ok_iff hhave hlen).trans hchk,
      (resCode_eq_chkbad_iff hhave hlen).trans (not_congr hchk), hsync⟩

end Sys2Proof.Proofs
end

section
/-!
PROOFS. The reset step (60_exceptions.md R115, R125): `rst` goes before the command, and every register becomes 0.
-/

namespace Sys2Proof.Proofs

open Sys2Proof Sys2Proof.Machine Sys2Proof.Safety

/-- `rst` has priority over `cmd`: the next state has no place for the sample's command (R115). -/
theorem step_eq_resetBlock {s : State} {p : PortSample} {rest : List PortSample} (hin : s.inputs = p :: rest)
    (hrst : p.rst = true) : step s = .next (resetBlock { s with inputs := rest }) := by
  rw [step_cons hin, afterEdge_reset hrst]

/-- After a reset there is no result (R33's first row). -/
@[simp] theorem resCode_resetBlock (s : State) : resCode (resetBlock s) = .none :=
  resCode_of_not_have (resetBlock_resHave s)

/-- Settles O30: the step is `resetBlock`, whatever the command word, and `resetBlock` writes 0 to every register of
R125 and keeps the parameters and the later samples. -/
theorem resetStepClearsEveryRegister : Obligations.ResetStepClearsEveryRegister :=
  fun s _ rest hin =>
    ⟨resetBlock { s with inputs := rest }, step_eq_resetBlock hin rfl, resCode_resetBlock _, rfl⟩

end Sys2Proof.Proofs
end

section
/-!
PROOFS. What a clock edge does to each register (10_state.md R14, R19 to R22), the single steps and the state after
reset, and the result-record invariant of 10_state.md section 4.
-/

namespace Sys2Proof.Proofs

open Sys2Proof Sys2Proof.Machine Sys2Proof.Safety

/-! The kinds of sample. -/

theorem rst_of_isDecodeStep {p : PortSample} (hdec : isDecodeStep p = true) : p.rst = false :=
  ((isDecodeStep_iff p).1 hdec).1

theorem decodeCmd_of_isDecodeStep {p : PortSample} (hdec : isDecodeStep p = true) : decodeCmd p.cmd = .decode :=
  (decodeCmd_eq_decode_iff _).2 ((isDecodeStep_iff p).1 hdec).2

/-- R101's steps are those that neither reset nor decode. -/
theorem keepsRecord_iff (p : PortSample) : keepsRecord p = true ↔ p.rst = false ∧ isDecodeStep p = false := by
  cases hrst : p.rst <;> simp [keepsRecord, isDecodeStep, hrst]

/-! The result registers after an edge. -/

/-- A reset clears `res_have`, a DECODE sets it, any other command keeps it (R21). -/
@[simp] theorem afterEdge_resHave (p : PortSample) (s : State) :
    (afterEdge p s).resHave = (!p.rst && (isDecodeStep p || s.resHave)) := by
  cases hrst : p.rst with
  | true => simp [afterEdge_reset hrst]
  | false =>
    cases hcmd : decodeCmd p.cmd with
    | nop => simp [afterEdge_nop hrst hcmd, isDecodeStep, hcmd]
    | shift d => simp [afterEdge_shift hrst hcmd, isDecodeStep, hcmd]
    | clear => simp [afterEdge_clear hrst hcmd, isDecodeStep, hcmd]
    | decode => simp [afterEdge_decode hrst hcmd, isDecodeStep, hrst, hcmd]

/-- A DECODE edge publishes the record of the capture (42_commands.md R100). -/
theorem afterEdge_res_of_decode {p : PortSample} (hdec : isDecodeStep p = true) (s : State) :
    (afterEdge p s).res = decodeCapture s.build s.cap s.cnt := by
  simp [afterEdge_decode (rst_of_isDecodeStep hdec) (decodeCmd_of_isDecodeStep hdec)]

/-- Any other edge keeps the record or, under `rst`, clears it. -/
theorem afterEdge_res_of_not_decode {p : PortSample} (hdec : isDecodeStep p = false) (s : State) :
    (afterEdge p s).res = if p.rst then ResultRecord.zero else s.res := by
  cases hrst : p.rst with
  | true => simp [afterEdge_reset hrst]
  | false =>
    cases hcmd : decodeCmd p.cmd with
    | nop => simp [afterEdge_nop hrst hcmd]
    | shift d => simp [afterEdge_shift hrst hcmd]
    | clear => simp [afterEdge_clear hrst hcmd]
    | decode => simp [isDecodeStep, hrst, hcmd] at hdec

/-! The capture after an edge that empties it (R19). -/

/-- The emptying steps: a reset, a CLEAR or a DECODE. -/
theorem empties_cases {p : PortSample} (hemp : empties p = true) :
    p.rst = true ∨ (p.rst = false ∧ decodeCmd p.cmd = .clear) ∨ (p.rst = false ∧ decodeCmd p.cmd = .decode) := by
  cases hrst : p.rst with
  | true => exact .inl rfl
  | false => simpa [empties, hrst] using hemp

theorem afterEdge_capture_of_empties {p : PortSample} (hemp : empties p = true) (s : State) :
    (afterEdge p s).cap = 0#68 ∧ (afterEdge p s).cnt = 0#8 := by
  obtain hrst | ⟨hrst, hcmd⟩ | ⟨hrst, hcmd⟩ := empties_cases hemp
  · rw [afterEdge_reset hrst]; exact ⟨rfl, rfl⟩
  · rw [afterEdge_clear hrst hcmd]; exact ⟨rfl, rfl⟩
  · rw [afterEdge_decode hrst hcmd]; exact ⟨rfl, rfl⟩

theorem afterEdge_cap_of_empties {p : PortSample} (hemp : empties p = true) (s : State) :
    (afterEdge p s).cap = 0#68 :=
  (afterEdge_capture_of_empties hemp s).1

theorem afterEdge_cnt_of_empties {p : PortSample} (hemp : empties p = true) (s : State) :
    (afterEdge p s).cnt = 0#8 :=
  (afterEdge_capture_of_empties hemp s).2

theorem empties_of_isDecodeStep {p : PortSample} (hdec : isDecodeStep p = true) : empties p = true := by
  simp [empties, decodeCmd_of_isDecodeStep hdec]

/-! Single steps. -/

/-- Without `rst`, the edge is the command on `cmd` (R14). -/
theorem clockEdge_of_not_rst {p : PortSample} (hrst : p.rst = false) (s : State) :
    clockEdge p s = exec (decodeCmd p.cmd) s := by
  rw [clockEdge, hrst, if_neg Bool.false_ne_true]

/-- Settles O29: the step takes the sample, and the edge of a sample without `rst` is its command. -/
theorem stepRunsTheDecodedCommand : Obligations.StepRunsTheDecodedCommand := by
  intro s w rest hin
  rw [step, takeSample_cons hin]
  exact clockEdge_of_not_rst rfl _

/-- Settles O32: an edge answers a next state, which keeps the parameters and the later samples. -/
theorem noEdgeEverStopsTheBlock : Obligations.NoEdgeEverStopsTheBlock :=
  ⟨fun s p rest hin =>
      ⟨afterEdge p { s with inputs := rest }, step_cons hin, afterEdge_inputs p _, afterEdge_build p _⟩,
    fun _ hin => step_nil hin⟩

/-- Settles O26: SHIFT is `captureBit` and then `clearStrobe`; the bits and the count are those of the shifted register
and the next count. -/
theorem shiftMovesEveryBitUp : Obligations.ShiftMovesEveryBitUp := by
  intro d s
  refine ⟨_, exec_shift d s, ?_, fun j hpos hj => ?_, toNat_nextCnt s.cnt, rfl, rfl, rfl, rfl, rfl⟩
  · rw [clearStrobe_cap, captureBit_cap, getLsbD_shiftedCap _ _ _ (by omega), if_pos rfl]
  · rw [clearStrobe_cap, captureBit_cap, getLsbD_shiftedCap _ _ _ hj, if_neg (by omega)]

/-- Settles O31: the reset state holds the table's zeros, and without a result `res_code` is NONE. -/
theorem resetValuesAreZero : Obligations.ResetValuesAreZero := by
  refine ⟨reset_cap, reset_cnt, reset_resHave, reset_resStrobe, reset_res, ?_⟩
  rw [resCode_of_not_have reset_resHave, resCodeBits]

/-! The result-record invariant. -/

/-- Without a result every result register is 0, which is all the invariant then asks. -/
theorem recordInv_of_zero {s : State} (hhave : s.resHave = false) (hstrobe : s.resStrobe = false)
    (hres : s.res = ResultRecord.zero) : RecordInv s := by
  refine ⟨fun herr => ?_, fun hsome => ?_, fun _ => ⟨hstrobe, hres⟩⟩
  · rw [hres] at herr; cases herr
  · rw [hhave] at hsome; cases hsome

/-- A published length error meets the invariant. -/
theorem recordInv_of_lenErrRecord {s : State} (hhave : s.resHave = true) (hres : s.res = lenErrRecord) :
    RecordInv s := by
  refine ⟨fun _ => hres, fun _ hlen => ?_, fun hnone => ?_⟩
  · rw [hres] at hlen; cases hlen
  · rw [hhave] at hnone; cases hnone

/-- So do the published fields of a frame. -/
theorem recordInv_of_frameRecord {s : State} {F : Frame} (hhave : s.resHave = true)
    (hres : s.res = frameRecord s.build.aux F) : RecordInv s := by
  refine ⟨fun herr => ?_, fun _ _ => ?_, fun hnone => ?_⟩
  · rw [hres] at herr; cases herr
  · rw [hres, frameRecord_frame]
  · rw [hhave] at hnone; cases hnone

/-- Whatever the capture held, a DECODE edge leaves a record that meets the invariant. -/
theorem recordInv_afterEdge_of_decode {p : PortSample} (hdec : isDecodeStep p = true) (s : State) :
    RecordInv (afterEdge p s) := by
  have hhave : (afterEdge p s).resHave = true := by simp [hdec, rst_of_isDecodeStep hdec]
  have hres := afterEdge_res_of_decode hdec s
  by_cases hlen : lengthOk s.build.variant s.cnt = true
  · rw [decodeCapture_accepted hlen, ← afterEdge_build p s] at hres
    exact recordInv_of_frameRecord hhave hres
  · rw [decodeCapture_rejected hlen] at hres
    exact recordInv_of_lenErrRecord hhave hres

/-- The invariant reads the result registers and the parameters, so it stays where they stay and the strobe falls. -/
theorem recordInv_of_same_record {s t : State} (hinv : RecordInv s) (hhave : t.resHave = s.resHave)
    (hres : t.res = s.res) (hbuild : t.build = s.build) (hstrobe : t.resStrobe = false) : RecordInv t := by
  obtain ⟨herr, hframe, hnone⟩ := hinv
  rw [RecordInv, hhave, hres, hbuild]
  exact ⟨herr, hframe, fun h => ⟨hstrobe, (hnone h).2⟩⟩

/-- Every edge keeps the invariant: a reset clears the record, a DECODE writes it in full, the others keep it. -/
theorem recordInv_afterEdge {s : State} (hinv : RecordInv s) (p : PortSample) : RecordInv (afterEdge p s) := by
  cases hdec : isDecodeStep p with
  | true => exact recordInv_afterEdge_of_decode hdec s
  | false =>
    have hres := afterEdge_res_of_not_decode hdec s
    have hstrobe : (afterEdge p s).resStrobe = false := by rw [afterEdge_resStrobe, hdec]
    cases hrst : p.rst with
    | true =>
      rw [hrst, if_pos rfl] at hres
      exact recordInv_of_zero (by simp [hrst]) hstrobe hres
    | false =>
      rw [hrst, if_neg Bool.false_ne_true] at hres
      exact recordInv_of_same_record hinv (by simp [hrst, hdec]) hres (afterEdge_build p s) hstrobe

/-- The invariant does not read the waiting samples. -/
theorem recordInv_set_inputs {s : State} (hinv : RecordInv s) (rest : List PortSample) :
    RecordInv { s with inputs := rest } := hinv

/-- Settles O35: a step is one edge, and every edge keeps the invariant. -/
theorem everyStepKeepsTheRecordInvariant : Obligations.EveryStepKeepsTheRecordInvariant := by
  intro s t hinv hstep
  obtain ⟨p, rest, -, rfl⟩ := step_cases hstep
  exact recordInv_afterEdge (recordInv_set_inputs hinv rest) p

/-- Settles O36: reset leaves no result and a record of zeros. -/
theorem resetHasTheRecordInvariant : Obligations.ResetHasTheRecordInvariant :=
  recordInv_of_zero reset_resHave reset_resStrobe reset_res

end Sys2Proof.Proofs
end

section
/-!
PROOFS. Frames, digit strings and transmissions (30_encoding.md section 2, 41_frame_decode.md sections 2 and 3): each
of the two readings of a frame is the other's inverse, and so is sending of decoding.
-/

namespace Sys2Proof.Proofs

open Sys2Proof Sys2Proof.Machine

/-! A frame and its 18 digits. -/

theorem getD_frameDigits (F : Frame) (k : Fin 18) : (frameDigits F).getD k.val 0#4 = digit F k := by
  simp [frameDigits]

theorem frameOfDigits_frameDigits (F : Frame) : frameOfDigits (frameDigits F) = F := by
  apply frame_ext_digits
  intro k
  rw [digit_frameOfDigits (frameDigits_length F), getD_frameDigits]

theorem frameDigits_frameOfDigits {ds : List Digit} (hlen : ds.length = 18) : frameDigits (frameOfDigits ds) = ds := by
  apply List.ext_getElem (by rw [frameDigits_length, hlen])
  intro k hk hk'
  have hdigit := digit_frameOfDigits hlen ⟨k, by rwa [frameDigits_length] at hk⟩
  rw [List.getD_eq_getElem _ _ hk'] at hdigit
  simpa [frameDigits] using hdigit

/-- Settles O19: a frame is its digits, and a full string is the digits of its frame. -/
theorem frameStringsAndFramesCorrespond : Obligations.FrameStringsAndFramesCorrespond :=
  ⟨frameOfDigits_frameDigits, fun _ => frameDigits_frameOfDigits⟩

/-! A digit string and its bits on the wire. -/

/-- Grouping the bits of a digit string in nibbles reads the digits back. -/
theorem nibbleDigits_digitsBits (ds : List Digit) : nibbleDigits (digitsBits ds) = ds := by
  induction ds with
  | nil => rfl
  | cons d ds ih =>
    rw [digitsBits_cons, digitBits]
    simp only [List.cons_append, List.nil_append, nibbleDigits, nibbleDigit_bits, ih]

/-- Sending the digits of whole nibbles gives the bits back. -/
theorem digitsBits_nibbleDigits {s : List Bool} (hlen : 4 ∣ s.length) : digitsBits (nibbleDigits s) = s := by
  fun_induction nibbleDigits s with
  | case1 b0 b1 b2 b3 rest ih =>
    have hrest : 4 ∣ rest.length := by
      simp only [List.length_cons] at hlen
      omega
    rw [digitsBits_cons, digitBits_nibbleDigit, ih hrest]
    rfl
  | case2 s hshort =>
    match s, hlen with
    | [], _ => rfl
    | [_], hlen | [_, _], hlen | [_, _, _], hlen => simp at hlen
    | b0 :: b1 :: b2 :: b3 :: rest, _ => exact absurd rfl (hshort b0 b1 b2 b3 rest)

/-! Sending and decoding a frame. -/

theorem prefixDigits_v68 : prefixDigits .v68 = [0xA#4] := rfl

theorem prefixDigits_v64 : prefixDigits .v64 = [0xA#4, 0xF#4] := rfl

/-- A frame that starts with the implied prefix is the prefix and what is sent of it. -/
theorem prefixDigits_append_sentDigits {v : Variant} {F : Frame}
    (hprefix : (frameDigits F).take (prefixDigits v).length = prefixDigits v) :
    prefixDigits v ++ sentDigits v F = frameDigits F := by
  conv_lhs => rw [← hprefix]
  exact List.take_append_drop _ _

theorem wireBits_length (v : Variant) (F : Frame) : (wireBits v F).length = 4 * (18 - (prefixDigits v).length) := by
  rw [wireBits, digitsBits_length, sentDigits, List.length_drop, frameDigits_length]

/-- What the receiver rebuilds from the sent bits is the frame. -/
theorem frameOfDigits_wireBits {v : Variant} {F : Frame}
    (hprefix : (frameDigits F).take (prefixDigits v).length = prefixDigits v) :
    frameOfDigits (prefixDigits v ++ nibbleDigits (wireBits v F)) = F := by
  rw [wireBits, nibbleDigits_digitsBits, prefixDigits_append_sentDigits hprefix, frameOfDigits_frameDigits]

/-- Settles O14: the sent bits have the variant's length, and rebuild the frame. -/
theorem decodingATransmissionGivesItsFrame : Obligations.DecodingATransmissionGivesItsFrame := by
  constructor
  · intro F h0
    have hprefix : (frameDigits F).take (prefixDigits .v68).length = prefixDigits .v68 := by
      rw [prefixDigits_v68, ← h0]
      rfl
    exact (decodeFn_v68_eq_frame_iff _ _).2 ⟨wireBits_length .v68 F, frameOfDigits_wireBits hprefix⟩
  · intro F h0 h1
    have hprefix : (frameDigits F).take (prefixDigits .v64).length = prefixDigits .v64 := by
      rw [prefixDigits_v64, ← h0, ← h1]
      rfl
    have hlen : (wireBits .v64 F).length = 64 := wireBits_length .v64 F
    refine (decodeFn_v64_eq_frame_iff _ _).2 ⟨hlen.ge, ?_⟩
    rw [trim64_of_le hlen.le, frameOfDigits_wireBits hprefix]

/-- Sending the frame of the prefix and of whole nibbles gives the nibbles' bits. -/
theorem wireBits_frameOfDigits {v : Variant} {s : List Bool} (hlen : s.length = 4 * (18 - (prefixDigits v).length)) :
    wireBits v (frameOfDigits (prefixDigits v ++ nibbleDigits s)) = s := by
  have hdigits : (prefixDigits v ++ nibbleDigits s).length = 18 := by
    rw [List.length_append, nibbleDigits_length, hlen]
    cases v <;> rfl
  rw [wireBits, sentDigits, frameDigits_frameOfDigits hdigits, List.drop_left,
    digitsBits_nibbleDigits (Dvd.intro _ hlen.symm)]

/-- Settles O15: a decoded frame is the prefix and the nibbles of the accepted bits, which are sent back. -/
theorem transmittingADecodedFrameGivesItsBits : Obligations.TransmittingADecodedFrameGivesItsBits := by
  constructor
  · intro s F hdec
    obtain ⟨hlen, rfl⟩ := (decodeFn_v68_eq_frame_iff s F).1 hdec
    exact wireBits_frameOfDigits hlen
  · intro s F hdec
    obtain ⟨hlen, rfl⟩ := (decodeFn_v64_eq_frame_iff s F).1 hdec
    rw [← trim64_eq_drop]
    exact wireBits_frameOfDigits (length_trim64 hlen)

/-! The length rules. -/

/-- When `V68` answers a length error (R72). -/
theorem decodeFn_v68_eq_lenErr_iff (s : List Bool) : decodeFn .v68 s = .lenErr ↔ s.length ≠ 68 := by
  rw [decodeFn]
  split
  · next hacc => simp [show s.length = 68 from hacc]
  · next hrej => simp [show ¬ s.length = 68 from hrej]

/-- Settles O17: among the lists of at most 68 bits, those of another length are the shorter ones. -/
theorem v68AcceptsA68BitTransmission : Obligations.V68AcceptsA68BitTransmission := by
  intro s hlen
  rw [decodeFn_v68_eq_lenErr_iff]
  omega

/-- The last 64 bits of a list do not change when bits are put before it. -/
theorem trim64_append (stray : List Bool) {own : List Bool} (hlen : 64 ≤ own.length) :
    trim64 (stray ++ own) = trim64 own := by
  have hcount : (stray ++ own).length - 64 = stray.length + (own.length - 64) := by
    rw [List.length_append]
    omega
  rw [trim64_eq_drop, trim64_eq_drop, hcount, List.drop_length_add_append]

/-- Settles O18: `V64` reads the trim alone, and both lists have the same. -/
theorem v64LeadingBitsAreHarmless : Obligations.V64LeadingBitsAreHarmless := by
  intro stray own hlen
  have hlong : 64 ≤ (stray ++ own).length := by
    rw [List.length_append]
    omega
  rw [← decodeFn_v64_trim64 hlong, trim64_append stray hlen, decodeFn_v64_trim64 hlen]

/-! The frame from its fields. -/

/-- The digits of a field of three, read back from the field. -/
theorem digits3_high (F : Frame) (p1 p2 p3 : Fin 18) : (digits3 F p1 p2 p3).extractLsb' 8 4 = digit F p1 := by
  rw [digits3, BitVec.extractLsb'_append_eq_of_le (by omega), BitVec.extractLsb'_append_eq_left]

theorem digits3_middle (F : Frame) (p1 p2 p3 : Fin 18) : (digits3 F p1 p2 p3).extractLsb' 4 4 = digit F p2 := by
  rw [digits3, BitVec.extractLsb'_append_eq_of_le (by omega), BitVec.extractLsb'_append_eq_right]

theorem digits3_low (F : Frame) (p1 p2 p3 : Fin 18) : (digits3 F p1 p2 p3).extractLsb' 0 4 = digit F p3 :=
  BitVec.extractLsb'_append_eq_right

/-- The digits and bytes of a frame in frame order, put side by side, are the frame. -/
theorem frame_eq_append_slices (F : Frame) :
    F = byte F 0 ++ byte F 1 ++ byte F 2 ++ digit F 6 ++ digit F 7 ++ digit F 8 ++ digit F 9 ++ digit F 10 ++
      digit F 11 ++ digit F 12 ++ digit F 13 ++ digits2 F 14 15 ++ byte F 8 := by
  have hrain : digits2 F 14 15 = F.extractLsb' 8 8 := digit_append_digit_of_succ F rfl
  rw [hrain]
  simp only [byte, digit]
  iterate 12 rw [BitVec.extractLsb'_append_extractLsb'_eq_extractLsb' (by rfl)]
  exact BitVec.extractLsb'_eq_self.symm

/-- Settles O23: under the default map each field is the slice that follows the one before, once the digits of the gap
and of the temperature are put back in frame order. -/
theorem fieldsRebuildTheFrame : Obligations.FieldsRebuildTheFrame := by
  intro F r
  have hgap : r.gap = digits3 F 7 6 8 := rfl
  have htemp : r.tempRaw = digits3 F 13 12 10 := rfl
  rw [hgap, htemp, digits3_high, digits3_middle, digits3_low, digits3_high, digits3_middle, digits3_low]
  exact frame_eq_append_slices F

end Sys2Proof.Proofs
end

section
/-!
PROOFS. The capture invariant (10_state.md R19), and DECODE on the capture register as the decode function on the
received bits (41_frame_decode.md R96).
-/

namespace Sys2Proof.Proofs

open Sys2Proof Sys2Proof.Machine Sys2Proof.Safety

/-! Each operation on the capture. -/

/-- An empty capture holds the empty list. -/
theorem captured_nil {s : State} (hcap : s.cap = 0#68) (hcnt : s.cnt = 0#8) : Captured s [] := by
  refine ⟨by rw [hcnt]; rfl, fun j _ => ?_⟩
  rw [hcap, BitVec.getLsbD_zero, List.length_nil, if_neg (Nat.not_lt_zero j)]

/-- The invariant reads the capture alone. -/
theorem captured_of_same_capture {s t : State} {bits : List Bool} (hcapt : Captured s bits) (hcap : t.cap = s.cap)
    (hcnt : t.cnt = s.cnt) : Captured t bits := by
  rw [Captured, hcap, hcnt]
  exact hcapt

/-- Taking in a bit appends it: it stands in bit 0 and every earlier bit one place up. -/
theorem captured_captureBit {s : State} {bits : List Bool} (hcapt : Captured s bits) (d : Bool) :
    Captured (captureBit d s) (bits ++ [d]) := by
  obtain ⟨hcnt, hcap⟩ := hcapt
  have hlen : (bits ++ [d]).length = bits.length + 1 := List.length_append
  rw [Captured, hlen]
  refine ⟨?_, fun j hj => ?_⟩
  · rw [captureBit_cnt, toNat_nextCnt, hcnt]
    omega
  · rw [captureBit_cap, getLsbD_shiftedCap _ _ _ hj]
    cases j with
    | zero =>
      rw [if_pos rfl, if_pos (Nat.succ_pos _), List.getD_append_right _ _ _ _ (by omega)]
      simp
    | succ j =>
      rw [if_neg (Nat.succ_ne_zero j), Nat.add_sub_cancel, hcap j (by omega)]
      by_cases hlt : j < bits.length
      · rw [if_pos hlt, if_pos (by omega), List.getD_append _ _ _ _ (by omega)]
        congr 1
        omega
      · rw [if_neg hlt, if_neg (by omega)]

/-! The capture over an edge. -/

theorem captured_afterEdge_of_empties {p : PortSample} (hemp : empties p = true) (s : State) :
    Captured (afterEdge p s) [] :=
  captured_nil (afterEdge_cap_of_empties hemp s) (afterEdge_cnt_of_empties hemp s)

/-- They leave no bit received. -/
theorem receivedAfter_of_empties {p : PortSample} (hemp : empties p = true) (bits : List Bool) :
    receivedAfter bits p = [] := by
  obtain hrst | ⟨hrst, hcmd⟩ | ⟨hrst, hcmd⟩ := empties_cases hemp
  · simp [receivedAfter, hrst]
  · simp [receivedAfter, hrst, hcmd]
  · simp [receivedAfter, hrst, hcmd]

theorem receivedAfter_nop {p : PortSample} (hrst : p.rst = false) (hcmd : decodeCmd p.cmd = .nop) (bits : List Bool) :
    receivedAfter bits p = bits := by
  simp [receivedAfter, hrst, hcmd]

theorem receivedAfter_shift {p : PortSample} {d : Bool} (hrst : p.rst = false) (hcmd : decodeCmd p.cmd = .shift d)
    (bits : List Bool) : receivedAfter bits p = bits ++ [d] := by
  simp [receivedAfter, hrst, hcmd]

/-- Every edge keeps the invariant, for the bits it leaves received. -/
theorem captured_afterEdge {s : State} {bits : List Bool} (hcapt : Captured s bits) (p : PortSample) :
    Captured (afterEdge p s) (receivedAfter bits p) := by
  cases hemp : empties p with
  | true =>
    rw [receivedAfter_of_empties hemp]
    exact captured_afterEdge_of_empties hemp s
  | false =>
    cases hrst : p.rst with
    | true => simp [empties, hrst] at hemp
    | false =>
      cases hcmd : decodeCmd p.cmd with
      | nop =>
        rw [receivedAfter_nop hrst hcmd, afterEdge_nop hrst hcmd]
        exact captured_of_same_capture hcapt (clearStrobe_cap s) (clearStrobe_cnt s)
      | shift d =>
        rw [receivedAfter_shift hrst hcmd, afterEdge_shift hrst hcmd]
        exact captured_of_same_capture (captured_captureBit hcapt d) (clearStrobe_cap _) (clearStrobe_cnt _)
      | clear => simp [empties, hcmd] at hemp
      | decode => simp [empties, hcmd] at hemp

/-- Settles O37: a step is one edge on the state that waits for the next sample. -/
theorem everyStepKeepsTheCaptureInvariant : Obligations.EveryStepKeepsTheCaptureInvariant := by
  intro s t p rest bits hcapt hin hstep
  rw [eq_afterEdge_of_step hin hstep]
  have hwait : Captured { s with inputs := rest } bits := captured_of_same_capture hcapt rfl rfl
  exact captured_afterEdge hwait p

/-- Settles O38: reset empties the capture. -/
theorem resetHasCapturedNothing : Obligations.ResetHasCapturedNothing :=
  captured_nil reset_cap reset_cnt

/-! DECODE and the decode function. -/

/-- The length test on the saturated count is the one on the received bits: 68 and 64 are below 255. -/
theorem lengthOk_iff_decodeFn_ne_lenErr {s : State} {bits : List Bool} (hcapt : Captured s bits) (v : Variant) :
    lengthOk v s.cnt = true ↔ decodeFn v bits ≠ .lenErr := by
  obtain ⟨hcnt, -⟩ := hcapt
  cases v with
  | v68 =>
    rw [lengthOk_v68, hcnt, Ne, decodeFn_v68_eq_lenErr_iff]
    omega
  | v64 =>
    rw [lengthOk_v64, hcnt, Ne, decodeFn_v64_eq_lenErr_iff]
    omega

/-- Where a received bit stands in the capture, counted from the oldest of the last `n`. -/
theorem getLsbD_cap_of_captured {s : State} {bits : List Bool} (hcapt : Captured s bits) {n i : Nat}
    (hn : n ≤ bits.length) (hcapN : n ≤ 68) (hi : i < n) :
    s.cap.getLsbD (n - 1 - i) = bits.getD (bits.length - n + i) false := by
  obtain ⟨-, hcap⟩ := hcapt
  rw [hcap _ (by omega), if_pos (by omega)]
  congr 1
  omega

/-- On the capture register `V68` rebuilds the frame of the received bits. -/
theorem rebuiltFrame_v68_of_captured {s : State} {bits : List Bool} {F : Frame} (hcapt : Captured s bits)
    (hdec : decodeFn .v68 bits = .frame F) : rebuiltFrame .v68 s.cap = F := by
  have hlen : bits.length = 68 := ((decodeFn_v68_eq_frame_iff bits F).1 hdec).1
  obtain ⟨hprefix, hbits⟩ := receivedNibblesBecomeDigits.1 bits F hdec
  apply frame_ext_digits
  refine Fin.cases ?_ fun n => ?_
  · rw [hprefix]
    exact BitVec.extractLsb'_append_eq_left
  · apply BitVec.eq_of_getLsbD_eq
    intro i hi
    have hplace : 68 - 4 * n.succ.val + i = 4 * (16 - n.val) + i := by rw [Fin.val_succ]; omega
    have hbit : 4 * (16 - n.val) + (3 - i) = 68 - 1 - (4 * n.val + i) := by omega
    rw [hbits n i hi, getLsbD_digit _ _ _ hi, hplace, getLsbD_rebuiltFrame_v68 _ _ _ (by omega) hi, hbit,
      getLsbD_cap_of_captured hcapt hlen.ge le_rfl (by omega), hlen, Nat.sub_self, Nat.zero_add]

/-! The two implied digits of `V64` (R76). -/

theorem digit_zero_rebuiltFrame_v64 (cap : Capture) : digit (rebuiltFrame .v64 cap) 0 = 0xA#4 :=
  BitVec.extractLsb'_append_eq_of_le (by decide)

theorem digit_one_rebuiltFrame_v64 (cap : Capture) : digit (rebuiltFrame .v64 cap) 1 = 0xF#4 :=
  BitVec.extractLsb'_append_eq_of_le (by decide)

/-- `V64` rebuilds it from the last 64 of them. -/
theorem rebuiltFrame_v64_of_captured {s : State} {bits : List Bool} {F : Frame} (hcapt : Captured s bits)
    (hdec : decodeFn .v64 bits = .frame F) : rebuiltFrame .v64 s.cap = F := by
  have hlen : 64 ≤ bits.length := ((decodeFn_v64_eq_frame_iff bits F).1 hdec).1
  obtain ⟨hprefix₀, hprefix₁, hbits⟩ := receivedNibblesBecomeDigits.2 bits F hdec
  apply frame_ext_digits
  refine Fin.cases ?_ (Fin.cases ?_ fun n => ?_)
  · exact (digit_zero_rebuiltFrame_v64 s.cap).trans hprefix₀.symm
  · exact (digit_one_rebuiltFrame_v64 s.cap).trans hprefix₁.symm
  · apply BitVec.eq_of_getLsbD_eq
    intro i hi
    have hplace : 68 - 4 * n.succ.succ.val + i = 4 * (15 - n.val) + i := by rw [Fin.val_succ, Fin.val_succ]; omega
    have hbit : 4 * (15 - n.val) + (3 - i) = 64 - 1 - (4 * n.val + i) := by omega
    rw [hbits n i hi, getLsbD_digit _ _ _ hi, hplace, getLsbD_rebuiltFrame_v64 _ _ _ (by omega) hi, hbit,
      getLsbD_cap_of_captured hcapt hlen (by omega) (by omega)]

/-- What DECODE publishes from the capture is the record of the decode function on the received bits (R96). -/
theorem decodeCapture_of_captured {s : State} {bits : List Bool} (hcapt : Captured s bits) (b : Build) :
    decodeCapture b s.cap s.cnt = recordOf b.aux (decodeFn b.variant bits) := by
  have hlength := lengthOk_iff_decodeFn_ne_lenErr hcapt b.variant
  cases hdec : decodeFn b.variant bits with
  | lenErr =>
    rw [decodeCapture_rejected (by rw [hlength]; exact not_not_intro hdec), recordOf]
  | frame F =>
    have hframe : rebuiltFrame b.variant s.cap = F := by
      cases hv : b.variant with
      | v68 => exact rebuiltFrame_v68_of_captured hcapt (hv ▸ hdec)
      | v64 => exact rebuiltFrame_v64_of_captured hcapt (hv ▸ hdec)
    rw [decodeCapture_accepted (hlength.2 (by rw [hdec]; simp)), hframe, recordOf]

/-- Settles O40: DECODE empties the capture and publishes the record of the received bits. -/
theorem decodeAgreesWithTheDecodeFunction : Obligations.DecodeAgreesWithTheDecodeFunction := by
  intro s bits hcapt
  rw [exec_decode, decodeCapture_of_captured hcapt]
  rfl

end Sys2Proof.Proofs
end

section
/-!
PROOFS. Runs: a run of `n` steps is `n` edges, one for each of the first `n` waiting samples. Every statement about runs
goes through this.
-/

namespace Sys2Proof.Proofs

open Sys2Proof Sys2Proof.Machine Sys2Proof.Safety

/-- The state after one edge for each sample of a list. -/
def afterEdges (ps : List PortSample) (s : State) : State := ps.foldl (fun t p => afterEdge p t) s

theorem afterEdges_nil (s : State) : afterEdges [] s = s := rfl

theorem afterEdges_cons (p : PortSample) (ps : List PortSample) (s : State) :
    afterEdges (p :: ps) s = afterEdges ps (afterEdge p s) := rfl

theorem afterEdges_append (ps qs : List PortSample) (s : State) :
    afterEdges (ps ++ qs) s = afterEdges qs (afterEdges ps s) :=
  List.foldl_append

@[simp] theorem afterEdges_build (ps : List PortSample) (s : State) : (afterEdges ps s).build = s.build := by
  induction ps generalizing s with
  | nil => rfl
  | cons p ps ih => rw [afterEdges_cons, ih, afterEdge_build]

@[simp] theorem afterEdges_inputs (ps : List PortSample) (s : State) : (afterEdges ps s).inputs = s.inputs := by
  induction ps generalizing s with
  | nil => rfl
  | cons p ps ih => rw [afterEdges_cons, ih, afterEdge_inputs]

/-- An edge does not read the samples of the later edges. -/
theorem afterEdge_set_inputs (p : PortSample) (s : State) (rest : List PortSample) :
    { afterEdge p s with inputs := rest } = afterEdge p { s with inputs := rest } := by
  unfold afterEdge
  split
  · rfl
  · cases decodeCmd p.cmd <;> rfl

/-- While samples wait, the run over them completes in the state after their edges. -/
theorem runsTo_afterEdges {s : State} {ps rest : List PortSample} (hin : s.inputs = ps ++ rest) :
    RunsTo ps.length s (afterEdges ps { s with inputs := rest }) := by
  induction ps generalizing s with
  | nil =>
    have hs : { s with inputs := rest } = s := by
      rw [List.nil_append] at hin
      rw [← hin]
    rw [afterEdges_nil, hs]
    exact core_run_zero s
  | cons p ps ih =>
    have hrun := ih (s := afterEdge p { s with inputs := ps ++ rest }) (afterEdge_inputs p _)
    rw [afterEdge_set_inputs, ← afterEdges_cons] at hrun
    exact (core_run_cons ps.length hin).trans hrun

/-- A run leads to one state. -/
theorem runsTo_unique {n : Nat} {s t u : State} (ht : RunsTo n s t) (hu : RunsTo n s u) : t = u := by
  rw [RunsTo, ht] at hu
  cases hu
  rfl

/-- The end of a run over known samples. -/
theorem eq_afterEdges_of_runsTo {s t : State} {ps rest : List PortSample} (hin : s.inputs = ps ++ rest)
    (hrun : RunsTo ps.length s t) : t = afterEdges ps { s with inputs := rest } :=
  runsTo_unique hrun (runsTo_afterEdges hin)

/-- A run that completes found a sample for each of its steps. -/
theorem le_length_inputs_of_runsTo {n : Nat} {s t : State} (hrun : RunsTo n s t) : n ≤ s.inputs.length := by
  induction n generalizing s with
  | zero => exact Nat.zero_le _
  | succ n ih =>
    cases hin : s.inputs with
    | nil =>
      rw [RunsTo, core_run_nil n hin] at hrun
      cases hrun
    | cons p rest =>
      have hlen := ih ((core_run_cons n hin).symm.trans hrun)
      rw [afterEdge_inputs] at hlen
      exact Nat.succ_le_succ hlen

/-- Everything a run that completes can have done. -/
theorem runsTo_cases {n : Nat} {s t : State} (hrun : RunsTo n s t) :
    ∃ ps rest, s.inputs = ps ++ rest ∧ t = afterEdges ps { s with inputs := rest } := by
  have hin : s.inputs = s.inputs.take n ++ s.inputs.drop n := (List.take_append_drop n s.inputs).symm
  have hlen : (s.inputs.take n).length = n := List.length_take_of_le (le_length_inputs_of_runsTo hrun)
  exact ⟨_, _, hin, eq_afterEdges_of_runsTo hin (by rwa [hlen])⟩

/-- Settles O53: a run is a list of edges, none of which changes the parameters. -/
theorem parametersNeverChange : Obligations.ParametersNeverChange := by
  intro n s t hrun
  obtain ⟨ps, rest, -, rfl⟩ := runsTo_cases hrun
  exact afterEdges_build ps _

/-! Runs of commands other than DECODE. -/

/-- Settles O46: the first NOP clears the strobe, and clearing it again changes nothing. -/
theorem idleStepsKeepTheState : Obligations.IdleStepsKeepTheState := by
  intro s p ps rest hnop hin
  have hfirst : afterEdge p { s with inputs := rest } = { s with resStrobe := false, inputs := rest } := by
    obtain ⟨hrst, hcmd⟩ := hnop p List.mem_cons_self
    exact afterEdge_nop hrst hcmd _
  have hstay : afterEdges ps { s with resStrobe := false, inputs := rest } =
      { s with resStrobe := false, inputs := rest } := by
    refine List.foldlRecOn (motive := (· = { s with resStrobe := false, inputs := rest })) ps _ rfl ?_
    rintro t rfl q hq
    obtain ⟨hrst, hcmd⟩ := hnop q (List.mem_cons_of_mem p hq)
    exact afterEdge_nop hrst hcmd _
  have hrun := runsTo_afterEdges hin
  rw [afterEdges_cons, hfirst, hstay] at hrun
  exact hrun

section
variable {p : PortSample} (hkeep : keepsRecord p = true) (s : State)
include hkeep

theorem afterEdge_res_of_keepsRecord : (afterEdge p s).res = s.res := by
  obtain ⟨hrst, hdec⟩ := (keepsRecord_iff p).1 hkeep
  rw [afterEdge_res_of_not_decode hdec, hrst, if_neg Bool.false_ne_true]

theorem afterEdge_resHave_of_keepsRecord : (afterEdge p s).resHave = s.resHave := by
  obtain ⟨hrst, hdec⟩ := (keepsRecord_iff p).1 hkeep
  simp [hrst, hdec]

theorem afterEdge_resStrobe_of_keepsRecord : (afterEdge p s).resStrobe = false := by
  rw [afterEdge_resStrobe, ((keepsRecord_iff p).1 hkeep).2]

end

/-- Over a run of NOP, SHIFT and CLEAR steps the record and `res_have` stay, and the strobe is 0 once it is. -/
theorem afterEdges_of_keepsRecord {ps : List PortSample} (hkeep : ∀ q ∈ ps, keepsRecord q = true) (s : State) :
    (afterEdges ps s).res = s.res ∧ (afterEdges ps s).resHave = s.resHave ∧
      (s.resStrobe = false → (afterEdges ps s).resStrobe = false) := by
  induction ps generalizing s with
  | nil => exact ⟨rfl, rfl, id⟩
  | cons p ps ih =>
    obtain ⟨hp, hps⟩ := List.forall_mem_cons.1 hkeep
    obtain ⟨hres, hhave, hstrobe⟩ := ih hps (afterEdge p s)
    rw [afterEdges_cons]
    exact ⟨hres.trans (afterEdge_res_of_keepsRecord hp s), hhave.trans (afterEdge_resHave_of_keepsRecord hp s),
      fun _ => hstrobe (afterEdge_resStrobe_of_keepsRecord hp s)⟩

/-- Settles O45: the first step clears the strobe, and no step of the run touches the record. -/
theorem resultStaysUntilDecodeOrReset : Obligations.ResultStaysUntilDecodeOrReset := by
  intro s p ps rest hkeep hin
  have hrun := runsTo_afterEdges hin
  obtain ⟨hres, hhave, -⟩ := afterEdges_of_keepsRecord hkeep { s with inputs := rest }
  obtain ⟨hp, hps⟩ := List.forall_mem_cons.1 hkeep
  obtain ⟨-, -, hstrobe⟩ := afterEdges_of_keepsRecord hps (afterEdge p { s with inputs := rest })
  exact ⟨_, hrun, hres, hhave, hstrobe (afterEdge_resStrobe_of_keepsRecord hp _), afterEdges_build _ _,
    afterEdges_inputs _ _⟩

/-! Runs of SHIFTs. -/

@[simp] theorem decodeCmd_encode (i : Instr) : decodeCmd (encode i) = i := by
  cases i with
  | nop => exact decodeCmd_cmdWord_nop false
  | shift d => exact decodeCmd_cmdWord_shift d
  | clear => exact decodeCmd_cmdWord_clear false
  | decode => exact decodeCmd_cmdWord_decode false

@[simp] theorem commandSample_rst (i : Instr) : (commandSample i).rst = false := rfl

@[simp] theorem decodeCmd_commandSample (i : Instr) : decodeCmd (commandSample i).cmd = i := decodeCmd_encode i

theorem isDecodeStep_commandSample_decode : isDecodeStep (commandSample .decode) = true := by
  simp [isDecodeStep]

theorem empties_commandSample_clear : empties (commandSample .clear) = true := by
  simp [empties]

/-- The samples of the SHIFTs of a bit list (30_encoding.md R63). -/
def shiftSamples (bs : List Bool) : List PortSample := (shifts bs).map commandSample

theorem shiftSamples_cons (d : Bool) (bs : List Bool) :
    shiftSamples (d :: bs) = commandSample (.shift d) :: shiftSamples bs := rfl

@[simp] theorem shiftSamples_length (bs : List Bool) : (shiftSamples bs).length = bs.length := by
  rw [shiftSamples, shifts, List.length_map, List.length_map]

/-- Each of them is a SHIFT. -/
theorem exists_of_mem_shiftSamples {p : PortSample} {bs : List Bool} (hp : p ∈ shiftSamples bs) :
    ∃ d, p = commandSample (.shift d) := by
  rw [shiftSamples, shifts, List.map_map] at hp
  obtain ⟨d, -, rfl⟩ := List.mem_map.1 hp
  exact ⟨d, rfl⟩

theorem keepsRecord_of_mem_shiftSamples {p : PortSample} {bs : List Bool} (hp : p ∈ shiftSamples bs) :
    keepsRecord p = true := by
  obtain ⟨d, rfl⟩ := exists_of_mem_shiftSamples hp
  simp [keepsRecord]

/-- The count over a run of SHIFTs: each adds 1 below 255. -/
theorem toNat_cnt_afterEdges_shiftSamples (ds : List Bool) (s : State) :
    (afterEdges (shiftSamples ds) s).cnt.toNat = min (s.cnt.toNat + ds.length) 255 := by
  induction ds generalizing s with
  | nil =>
    have hmax := s.cnt.isLt
    change s.cnt.toNat = min s.cnt.toNat 255
    omega
  | cons d ds ih =>
    have hedge := afterEdge_shift (commandSample_rst (.shift d)) (decodeCmd_commandSample (.shift d)) s
    rw [shiftSamples_cons, afterEdges_cons, ih, hedge, clearStrobe_cnt, captureBit_cnt, toNat_nextCnt,
      List.length_cons]
    omega

/-- Settles O47: the count saturates, and SHIFTs keep the record. -/
theorem counterSaturatesAt255 : Obligations.CounterSaturatesAt255 := by
  intro s ds rest hin
  have hrun := runsTo_afterEdges (ps := shiftSamples ds) hin
  rw [shiftSamples_length] at hrun
  obtain ⟨hres, hhave, -⟩ :=
    afterEdges_of_keepsRecord (fun _ => keepsRecord_of_mem_shiftSamples (bs := ds)) { s with inputs := rest }
  exact ⟨_, hrun, toNat_cnt_afterEdges_shiftSamples ds _, hres, hhave, afterEdges_build _ _, afterEdges_inputs _ _⟩

/-! `res_have` over any run. -/

/-- Some step of the run is a DECODE with no reset step after it. -/
def DecodedSinceReset (ps : List PortSample) : Prop :=
  ∃ before p after, ps = before ++ p :: after ∧ isDecodeStep p = true ∧ ∀ q ∈ after, q.rst = false

theorem not_decodedSinceReset_nil : ¬ DecodedSinceReset [] := by
  rintro ⟨before, p, after, hsplit, -⟩
  exact List.append_ne_nil_of_right_ne_nil before (List.cons_ne_nil p after) hsplit.symm

/-- That step is the first one or a later one. -/
theorem decodedSinceReset_cons (p : PortSample) (ps : List PortSample) :
    DecodedSinceReset (p :: ps) ↔
      (isDecodeStep p = true ∧ ∀ q ∈ ps, q.rst = false) ∨ DecodedSinceReset ps := by
  constructor
  · rintro ⟨before, q, after, hsplit, hdec, hafter⟩
    cases before with
    | nil =>
      obtain ⟨rfl, rfl⟩ := List.cons_eq_cons.1 hsplit
      exact .inl ⟨hdec, hafter⟩
    | cons b before =>
      obtain ⟨rfl, rfl⟩ := List.cons_eq_cons.1 hsplit
      exact .inr ⟨before, q, after, rfl, hdec, hafter⟩
  · rintro (⟨hdec, hafter⟩ | ⟨before, q, after, rfl, hdec, hafter⟩)
    · exact ⟨[], p, ps, rfl, hdec, hafter⟩
    · exact ⟨p :: before, q, after, rfl, hdec, hafter⟩

/-- A first edge leaves `res_have` 1 when it decodes, or finds it 1 and does not reset; the rest of the run keeps that
as long as it holds no reset. -/
theorem resHave_afterEdges (ps : List PortSample) (s : State) :
    (afterEdges ps s).resHave = true ↔
      DecodedSinceReset ps ∨ (s.resHave = true ∧ ∀ q ∈ ps, q.rst = false) := by
  induction ps generalizing s with
  | nil => simp [afterEdges_nil, not_decodedSinceReset_nil]
  | cons p ps ih =>
    have hfirst : (afterEdge p s).resHave = true ↔ isDecodeStep p = true ∨ (s.resHave = true ∧ p.rst = false) := by
      have hrst := rst_of_isDecodeStep (p := p)
      rw [afterEdge_resHave, Bool.and_eq_true, Bool.or_eq_true, Bool.not_eq_true']
      tauto
    rw [afterEdges_cons, ih, hfirst, decodedSinceReset_cons, List.forall_mem_cons]
    tauto

/-- Settles O34: `res_have` after the edges of the run. -/
theorem haveMarksADecodeSinceReset : Obligations.HaveMarksADecodeSinceReset := by
  intro s t ps rest hin hrun
  rw [eq_afterEdges_of_runsTo hin hrun]
  exact resHave_afterEdges ps _

/-! The output ports over a run without a DECODE. -/

/-- The ports are the three result registers: `res_code` is combinational from them (R33). -/
theorem outputs_eq_iff (s t : State) :
    outputs s = outputs t ↔ s.resHave = t.resHave ∧ s.resStrobe = t.resStrobe ∧ s.res = t.res := by
  constructor
  · intro h
    simp only [outputs, OutputPorts.mk.injEq] at h
    obtain ⟨hhave, hstrobe, hres, -⟩ := h
    exact ⟨hhave, hstrobe, hres⟩
  · rintro ⟨hhave, hstrobe, hres⟩
    simp only [outputs, resCode, hhave, hstrobe, hres]

/-- An edge that is no DECODE writes the result registers from the sample and from themselves. -/
theorem outputs_afterEdge_congr {p : PortSample} (hdec : isDecodeStep p = false) {s₁ s₂ : State}
    (hout : outputs s₁ = outputs s₂) : outputs (afterEdge p s₁) = outputs (afterEdge p s₂) := by
  obtain ⟨hhave, -, hres⟩ := (outputs_eq_iff _ _).1 hout
  rw [outputs_eq_iff, afterEdge_resHave, afterEdge_resHave, afterEdge_resStrobe, afterEdge_resStrobe,
    afterEdge_res_of_not_decode hdec, afterEdge_res_of_not_decode hdec, hhave, hres]
  exact ⟨rfl, rfl, rfl⟩

theorem outputs_afterEdges_congr {ps : List PortSample} (hdec : ∀ p ∈ ps, isDecodeStep p = false) {s₁ s₂ : State}
    (hout : outputs s₁ = outputs s₂) : outputs (afterEdges ps s₁) = outputs (afterEdges ps s₂) := by
  induction ps generalizing s₁ s₂ with
  | nil => exact hout
  | cons p ps ih =>
    obtain ⟨hp, hps⟩ := List.forall_mem_cons.1 hdec
    exact ih hps (outputs_afterEdge_congr hp hout)

/-- The ports do not show the waiting samples. -/
theorem outputs_set_inputs (s : State) (rest : List PortSample) : outputs { s with inputs := rest } = outputs s := rfl

/-- Settles O44: equal ports stay equal edge by edge. -/
theorem captureIsObservedOnlyThroughDecode : Obligations.CaptureIsObservedOnlyThroughDecode := by
  intro s₁ s₂ t₁ t₂ ps rest hout hdec hin₁ hin₂ hrun₁ hrun₂
  rw [eq_afterEdges_of_runsTo hin₁ hrun₁, eq_afterEdges_of_runsTo hin₂ hrun₂]
  apply outputs_afterEdges_congr hdec
  exact (outputs_set_inputs s₁ rest).trans (hout.trans (outputs_set_inputs s₂ rest).symm)

end Sys2Proof.Proofs
end

section
/-!
PROOFS. The capture over a run (10_state.md R19) and the transmissions (42_commands.md R107, 41_frame_decode.md
section 5): whatever stood before, a DECODE publishes the decode function of the bits received since the capture was
last emptied.
-/

namespace Sys2Proof.Proofs

open Sys2Proof Sys2Proof.Machine Sys2Proof.Safety

theorem receivedOver_cons (bits : List Bool) (p : PortSample) (ps : List PortSample) :
    receivedOver bits (p :: ps) = receivedOver (receivedAfter bits p) ps := rfl

/-- The capture invariant holds over any list of edges. -/
theorem captured_afterEdges {s : State} {bits : List Bool} (hcapt : Captured s bits) (ps : List PortSample) :
    Captured (afterEdges ps s) (receivedOver bits ps) := by
  induction ps generalizing s bits with
  | nil => exact hcapt
  | cons p ps ih =>
    rw [afterEdges_cons, receivedOver_cons]
    exact ih (captured_afterEdge hcapt p)

/-- Settles O39: the run over waiting samples completes, and each of its edges keeps the invariant. -/
theorem captureHoldsTheReceivedBitsOverAnyRun : Obligations.CaptureHoldsTheReceivedBitsOverAnyRun := by
  intro s bits ps rest hcapt hin
  have hwait : Captured { s with inputs := rest } bits := captured_of_same_capture hcapt rfl rfl
  exact ⟨_, runsTo_afterEdges hin, captured_afterEdges hwait ps, afterEdges_inputs _ _, afterEdges_build _ _⟩

/-! An emptying step, any further steps, and a DECODE. -/

/-- The state after them. -/
def afterTransmission (p : PortSample) (ps : List PortSample) (q : PortSample) (s : State) : State :=
  afterEdge q (afterEdges ps (afterEdge p s))

theorem afterEdges_eq_afterTransmission (p : PortSample) (ps : List PortSample) (q : PortSample) (s : State) :
    afterEdges (p :: ps ++ [q]) s = afterTransmission p ps q s := by
  rw [afterEdges_append, afterEdges_cons]
  rfl

/-- A run over those samples ends there. -/
theorem runsTo_afterTransmission {s : State} {p q : PortSample} {ps rest : List PortSample}
    (hin : s.inputs = p :: ps ++ q :: rest) :
    RunsTo (ps.length + 2) s (afterTransmission p ps q { s with inputs := rest }) := by
  have hin' : s.inputs = (p :: ps ++ [q]) ++ rest := by rw [hin, List.append_cons]
  have hlen : (p :: ps ++ [q]).length = ps.length + 2 := by simp
  have hrun := runsTo_afterEdges hin'
  rwa [hlen, afterEdges_eq_afterTransmission] at hrun

@[simp] theorem afterTransmission_build (p q : PortSample) (ps : List PortSample) (s : State) :
    (afterTransmission p ps q s).build = s.build := by
  simp [afterTransmission]

@[simp] theorem afterTransmission_inputs (p q : PortSample) (ps : List PortSample) (s : State) :
    (afterTransmission p ps q s).inputs = s.inputs := by
  simp [afterTransmission]

section
variable {q : PortSample} (hdec : isDecodeStep q = true) (p : PortSample) (ps : List PortSample) (s : State)
include hdec

theorem afterTransmission_resHave : (afterTransmission p ps q s).resHave = true := by
  simp [afterTransmission, hdec, rst_of_isDecodeStep hdec]

theorem afterTransmission_resStrobe : (afterTransmission p ps q s).resStrobe = true := by
  simp [afterTransmission, hdec]

theorem afterTransmission_cap : (afterTransmission p ps q s).cap = 0#68 :=
  afterEdge_cap_of_empties (empties_of_isDecodeStep hdec) _

theorem afterTransmission_cnt : (afterTransmission p ps q s).cnt = 0#8 :=
  afterEdge_cnt_of_empties (empties_of_isDecodeStep hdec) _

variable {p} (hemp : empties p = true)
include hemp

/-- The record is that of the decode function on the bits received in between: nothing from before the emptying enters,
since the capture then holds no bit. -/
theorem afterTransmission_res :
    (afterTransmission p ps q s).res = recordOf s.build.aux (decodeFn s.build.variant (receivedOver [] ps)) := by
  have hcapt := captured_afterEdges (captured_afterEdge_of_empties hemp s) ps
  rw [afterTransmission, afterEdge_res_of_decode hdec, decodeCapture_of_captured hcapt, afterEdges_build,
    afterEdge_build]

end

/-- Settles O41: the CLEAR empties the capture. What the steps in between leave received is counted by `receivedOver`
whatever they are, so that they are NOPs and SHIFTs is not needed. -/
theorem oneTransmissionPublishesItsRecord : Obligations.OneTransmissionPublishesItsRecord := by
  intro s ps rest _ hin
  have hdec := isDecodeStep_commandSample_decode
  exact ⟨_, runsTo_afterTransmission hin, afterTransmission_res hdec ps _ empties_commandSample_clear,
    afterTransmission_resHave hdec _ _ _, afterTransmission_resStrobe hdec _ _ _, afterTransmission_cap hdec _ _ _,
    afterTransmission_cnt hdec _ _ _, afterTransmission_build _ _ _ _, afterTransmission_inputs _ _ _ _⟩

/-- Settles O43: both runs end in a transmission of the same samples, whose record reads the parameters alone of what
was before. -/
theorem decodeForgetsWhatCameBeforeEmptying : Obligations.DecodeForgetsWhatCameBeforeEmptying := by
  intro s₁ s₂ t₁ t₂ before ps p q rest hbuild hemp hdec hin₁ hin₂ hrun₁ hrun₂
  have hin₁ : s₁.inputs = (before ++ (p :: ps ++ [q])) ++ rest := by rw [hin₁]; simp
  have hlen : (before ++ (p :: ps ++ [q])).length = before.length + ps.length + 2 := by simp; omega
  rw [← hlen] at hrun₁ hrun₂
  have hend₁ := eq_afterEdges_of_runsTo hin₁ hrun₁
  have hend₂ := eq_afterEdges_of_runsTo (hin₂.trans hin₁) hrun₂
  rw [afterEdges_append, afterEdges_eq_afterTransmission] at hend₁ hend₂
  rw [hend₁, hend₂, afterTransmission_res hdec ps _ hemp, afterTransmission_res hdec ps _ hemp, afterEdges_build,
    afterEdges_build, hbuild]

/-- No bits are a length error under both variants (R72, R73). -/
theorem decodeFn_nil (v : Variant) : decodeFn v [] = .lenErr := by
  cases v with
  | v68 => exact (decodeFn_v68_eq_lenErr_iff []).2 (by decide)
  | v64 => exact (decodeFn_v64_eq_lenErr_iff []).2 (by decide)

/-- Settles O48: a transmission of no bits. -/
theorem decodeOfAnEmptyCaptureIsALengthError : Obligations.DecodeOfAnEmptyCaptureIsALengthError := by
  intro s p q rest hemp hdec hin
  have hres : (afterTransmission p [] q { s with inputs := rest }).res = lenErrRecord := by
    rw [afterTransmission_res hdec [] _ hemp]
    exact congrArg (recordOf s.build.aux) (decodeFn_nil s.build.variant)
  have hcode := resCode_of_errLen (afterTransmission_resHave hdec p [] _) (by rw [hres, lenErrRecord_errLen])
  exact ⟨_, runsTo_afterTransmission (ps := []) hin, hres, hcode, afterTransmission_resStrobe hdec _ _ _,
    afterTransmission_inputs _ _ _ _⟩

/-! Frame lines. -/

/-- SHIFTs append their bits. -/
theorem receivedOver_shiftSamples (bits ds : List Bool) : receivedOver bits (shiftSamples ds) = bits ++ ds := by
  induction ds generalizing bits with
  | nil => exact (List.append_nil bits).symm
  | cons d ds ih =>
    rw [shiftSamples_cons, receivedOver_cons, receivedAfter_shift (commandSample_rst _) (decodeCmd_commandSample _), ih,
      ← List.append_cons]

/-- A frame line is a transmission of its digits (R63). -/
theorem map_commandSample_frameCommands (ds : List Digit) :
    (frameCommands ds).map commandSample =
      commandSample .clear :: shiftSamples (digitsBits ds) ++ [commandSample .decode] := by
  simp [frameCommands, shiftSamples]

theorem decodeFn_v68_digitsBits {ds : List Digit} (hlen : ds.length = 17) :
    decodeFn .v68 (digitsBits ds) = .frame (frameOfDigits (0xA#4 :: ds)) := by
  rw [decodeFn_v68_eq_frame_iff, digitsBits_length, hlen, nibbleDigits_digitsBits, prefixDigits_v68]
  exact ⟨rfl, rfl⟩

theorem decodeFn_v64_digitsBits {ds : List Digit} (hlen : ds.length = 16) :
    decodeFn .v64 (digitsBits ds) = .frame (frameOfDigits (0xA#4 :: 0xF#4 :: ds)) := by
  have hbits : (digitsBits ds).length = 64 := by rw [digitsBits_length, hlen]
  rw [decodeFn_v64_eq_frame_iff, trim64_of_le hbits.le, nibbleDigits_digitsBits, prefixDigits_v64]
  exact ⟨hbits.ge, rfl⟩

/-- Running a frame line whose bits decode to `F` publishes the fields of `F`. -/
theorem runsTo_frameLine {s : State} {ds : List Digit} {rest : List PortSample} {F : Frame}
    (hin : s.inputs = (frameCommands ds).map commandSample ++ rest)
    (hframe : decodeFn s.build.variant (digitsBits ds) = .frame F) :
    ∃ t, RunsTo (4 * ds.length + 2) s t ∧ t.res = frameRecord s.build.aux F ∧ t.resStrobe = true ∧ t.inputs = rest := by
  have hin : s.inputs = commandSample .clear :: shiftSamples (digitsBits ds) ++ commandSample .decode :: rest := by
    rw [hin, map_commandSample_frameCommands, ← List.append_cons]
  have hdec := isDecodeStep_commandSample_decode
  have hrun := runsTo_afterTransmission hin
  have hres := afterTransmission_res hdec (shiftSamples (digitsBits ds)) { s with inputs := rest }
    empties_commandSample_clear
  rw [shiftSamples_length, digitsBits_length] at hrun
  rw [receivedOver_shiftSamples, List.nil_append, hframe, recordOf] at hres
  exact ⟨_, hrun, hres, afterTransmission_resStrobe hdec _ _ _, afterTransmission_inputs _ _ _ _⟩

/-- Settles O42: 17 digits under `V68` and 16 under `V64` decode to the frame of the prefix and the digits. -/
theorem frameLinePublishesItsDigits : Obligations.FrameLinePublishesItsDigits := by
  constructor
  · intro s hs rest hv hin
    have hlen : hs.toList.length = 17 := hs.length_toList
    have hline := runsTo_frameLine hin (hv ▸ decodeFn_v68_digitsBits hlen)
    rwa [hlen] at hline
  · intro s hs rest hv hin
    have hlen : hs.toList.length = 16 := hs.length_toList
    have hline := runsTo_frameLine hin (hv ▸ decodeFn_v64_digitsBits hlen)
    rwa [hlen] at hline

end Sys2Proof.Proofs
end

section
/-!
PROOFS. The command word and its written form (30_encoding.md R50, R52, R62, R64).
-/

namespace Sys2Proof.Proofs

open Sys2Proof Sys2Proof.Machine

/-- A word is its two fields (R50). -/
theorem cmdWord_cmdOp_cmdDin (w : Cmd) : cmdWord (cmdOp w) (cmdDin w) = w := by
  revert w; decide

/-- Encoding what the word of two fields decodes to keeps the data bit of SHIFT and clears any other. -/
theorem encode_decodeCmd_cmdWord (op : BitVec 2) (d : Bool) :
    encode (decodeCmd (cmdWord op d)) = if op = 0b01#2 then cmdWord op d else cmdWord op false := by
  have hcodes : op = 0b00#2 ∨ op = 0b01#2 ∨ op = 0b10#2 ∨ op = 0b11#2 := by
    revert op; decide
  obtain rfl | rfl | rfl | rfl := hcodes
  · rw [decodeCmd_cmdWord_nop]; rfl
  · rw [decodeCmd_cmdWord_shift]; rfl
  · rw [decodeCmd_cmdWord_clear]; rfl
  · rw [decodeCmd_cmdWord_decode]; rfl

/-- Settles O2: the emitted word decodes to its command, and a word is its operation code and data bit. -/
theorem decodeAndEncodeAgree : Obligations.DecodeAndEncodeAgree := by
  refine ⟨decodeCmd_encode, fun w => ?_⟩
  have hfields := encode_decodeCmd_cmdWord (cmdOp w) (cmdDin w)
  rwa [cmdWord_cmdOp_cmdDin] at hfields

theorem isCommandWord_iff (w : Nat) : isCommandWord w = true ↔ w < 8 := decide_eq_true_iff

/-- Settles O5: a number is a command word below 8, and is then its own three bits. -/
theorem onlyThreeBitWordsDecode : Obligations.OnlyThreeBitWordsDecode := by
  constructor
  · intro w
    rw [decodeWord, if_pos ((isCommandWord_iff _).2 w.isLt), BitVec.ofNat_toNat, BitVec.setWidth_eq]
  · intro w hwide
    rw [decodeWord, if_neg (mt (isCommandWord_iff w).1 (Nat.not_lt.2 hwide))]

/-- The character of a word has the code of its octal digit. -/
theorem toNat_octalDigit (w : Cmd) : (Char.ofNat (48 + w.toNat)).toNat = 48 + w.toNat := by
  revert w; decide

/-- Reading one octal digit before others. -/
theorem wordsOfOctal_cons_octalDigit (w : Cmd) {cs : List Char} {ws : List Cmd} (hcs : wordsOfOctal cs = .ok ws) :
    wordsOfOctal (Char.ofNat (48 + w.toNat) :: cs) = .ok (w :: ws) := by
  have hlt := w.isLt
  have hback : BitVec.ofNat 3 (48 + w.toNat - 48) = w := by
    rw [Nat.add_sub_cancel_left, BitVec.ofNat_toNat, BitVec.setWidth_eq]
  rw [wordsOfOctal, toNat_octalDigit, if_neg (by omega), hcs, hback]

/-- Settles O4: digit by digit. -/
theorem octalWordsRoundTrip : Obligations.OctalWordsRoundTrip := by
  intro ws
  induction ws with
  | nil => rfl
  | cons w ws ih => exact wordsOfOctal_cons_octalDigit w ih

end Sys2Proof.Proofs
end

section
/-!
PROOFS. What the checksum accepts and what it detects (40_checksum.md R65, R66, R69): a sequence passes when all its
bytes together fold to 0, so a flip is seen in the fold.
-/

namespace Sys2Proof.Proofs

open Sys2Proof Sys2Proof.Machine Sys2Proof.Safety

/-- Payload and checksum together fold to 0 exactly when the payload folds to the checksum. -/
theorem xorCheck_eq_decide_xorFold {B : List Byte} (hlen : 2 ≤ B.length) :
    xorCheck B = .ok (decide (xorFold B = 0#8)) := by
  induction B using List.reverseRecOn with
  | nil => simp at hlen
  | append_singleton P c _ =>
    have hP : P ≠ [] := by
      rintro rfl
      simp at hlen
    rw [xorCheck_append_singleton hP, xorFold_append_singleton, beq_eq_decide,
      decide_eq_decide.2 BitVec.xor_eq_zero_iff.symm]

theorem xorFold_replicate_zero (n : Nat) : xorFold (List.replicate n 0#8) = 0#8 := by
  induction n with
  | zero => rfl
  | succ n ih => rw [List.replicate_succ, xorFold_cons, ih, BitVec.xor_zero]

/-- Settles O8: the payload's fold against the last byte, for one byte, for zeros, and for the whole sequence. -/
theorem xorCheckComparesTheLastByte : Obligations.XorCheckComparesTheLastByte := by
  have hpayload : ∀ (a : Byte) (P : List Byte) (c : Byte),
      xorCheck (a :: P ++ [c]) = .ok (decide (xorFold (a :: P) = c)) := fun a P c => by
    rw [xorCheck_append_singleton (List.cons_ne_nil a P), beq_eq_decide]
  have hwhole : ∀ (a b : Byte) (B : List Byte),
      xorCheck (a :: b :: B) = .ok (decide (xorFold (a :: b :: B) = 0#8)) := fun a b B =>
    xorCheck_eq_decide_xorFold (by simp)
  refine ⟨hpayload, fun a b => ?_, fun n c => ?_, hwhole, ?_⟩
  · have hone : xorFold [a] = a := by rw [xorFold_cons, xorFold_nil, BitVec.xor_zero]
    have htwo := hpayload a [] b
    rwa [hone] at htwo
  · rw [List.replicate_succ, hpayload, ← List.replicate_succ, xorFold_replicate_zero, decide_eq_decide.2 eq_comm]
  · rw [hwhole]
    rfl

/-- A sequence passes exactly when it has a payload and a checksum and folds to 0. -/
theorem xorCheck_eq_ok_true_iff (B : List Byte) : xorCheck B = .ok true ↔ 2 ≤ B.length ∧ xorFold B = 0#8 := by
  by_cases hlen : 2 ≤ B.length
  · simp [xorCheck_eq_decide_xorFold hlen, hlen]
  · simp [xorCheck_of_lt_two (Nat.not_le.1 hlen), hlen]

theorem xorCheck_eq_ok_false_iff (B : List Byte) : xorCheck B = .ok false ↔ 2 ≤ B.length ∧ xorFold B ≠ 0#8 := by
  by_cases hlen : 2 ≤ B.length
  · simp [xorCheck_eq_decide_xorFold hlen, hlen]
  · simp [xorCheck_of_lt_two (Nat.not_le.1 hlen), hlen]

@[simp] theorem length_flipBit (B : List Byte) (i k : Nat) : (flipBit B i k).length = B.length :=
  List.length_modify _ _ _

/-- A flipped bit of a byte is flipped in the fold. -/
theorem xorFold_flipBit {B : List Byte} {i : Nat} (hi : i < B.length) (k : Nat) :
    xorFold (flipBit B i k) = xorFold B ^^^ (1#8 <<< k) := by
  induction B generalizing i with
  | nil => simp at hi
  | cons b B ih =>
    cases i with
    | zero =>
      rw [flipBit, List.modify_zero_cons, xorFold_cons, xorFold_cons, BitVec.xor_assoc, BitVec.xor_assoc,
        BitVec.xor_comm (xorFold B)]
    | succ i =>
      have hrest := ih (Nat.lt_of_succ_lt_succ hi)
      rw [flipBit] at hrest
      rw [flipBit, List.modify_succ_cons, xorFold_cons, xorFold_cons, hrest, BitVec.xor_assoc]

/-- A flip within the byte is no zero. -/
theorem one_shiftLeft_ne_zero {k : Nat} (hk : k < 8) : 1#8 <<< k ≠ 0#8 := by
  intro hzero
  have hbit : (1#8 <<< k).getLsbD k = false := by rw [hzero, BitVec.getLsbD_zero]
  simp [hk] at hbit

/-- Settles O11: the fold of a passing sequence is 0, the flipped bit alone after one flip, and 0 again after two at one
bit position. -/
theorem checksumDetectsEverySingleBitFlip : Obligations.ChecksumDetectsEverySingleBitFlip := by
  intro B k hpass hk
  obtain ⟨hlen, hfold⟩ := (xorCheck_eq_ok_true_iff B).1 hpass
  have hflip : ∀ i, i < B.length → xorFold (flipBit B i k) = 1#8 <<< k := fun i hi => by
    rw [xorFold_flipBit hi, hfold, BitVec.zero_xor]
  refine ⟨fun i hi => ?_, fun i j hi hj _ => ?_⟩
  · rw [xorCheck_eq_ok_false_iff, length_flipBit, hflip i hi]
    exact ⟨hlen, one_shiftLeft_ne_zero hk⟩
  · have hj : j < (flipBit B i k).length := by rwa [length_flipBit]
    rw [xorCheck_eq_ok_true_iff, length_flipBit, length_flipBit, xorFold_flipBit hj, hflip i hi, BitVec.xor_self]
    exact ⟨hlen, rfl⟩

end Sys2Proof.Proofs
end

section
/-!
PROOFS. The consumer's view (10_state.md section 4, 93_implementation_defined.md I7), and the sync flag beside the
checksum's verdict (60_exceptions.md section 2).
-/

namespace Sys2Proof.Proofs

open Sys2Proof Sys2Proof.Machine Sys2Proof.Safety

/-! When the view is empty, and what it holds otherwise. -/

theorem telemetry_of_not_have {s : State} (hhave : s.resHave = false) : telemetry s = none := by
  rw [telemetry, resCode_of_not_have hhave]

theorem telemetry_of_errLen {s : State} (hlen : s.res.errLen = true) : telemetry s = none := by
  cases hhave : s.resHave with
  | false => exact telemetry_of_not_have hhave
  | true => rw [telemetry, resCode_of_errLen hhave hlen]

theorem telemetry_of_frame {s : State} (hhave : s.resHave = true) (hlen : s.res.errLen = false) :
    telemetry s = some (telemetryOf s.res) := by
  cases hchk : s.res.chkOk with
  | true => rw [telemetry, resCode_of_chkOk hhave hlen hchk]
  | false => rw [telemetry, resCode_of_not_chkOk hhave hlen hchk]

/-! The consumer's values of a frame's record. -/

section
variable (aux : AuxFieldMap) (F : Frame)

/-- Widening a numeral keeps its value (41_frame_decode.md R83). -/
theorem toNat_airGapCm_telemetryOf_frameRecord :
    (telemetryOf (frameRecord aux F)).airGapCm.toNat =
      256 * (digit F 7).toNat + 16 * (digit F 6).toNat + (digit F 8).toNat := by
  have hgap : (frameRecord aux F).gap = digits3 F 7 6 8 := rfl
  rw [telemetryOf_airGapCm, hgap, BitVec.toNat_setWidth_of_le (by omega), toNat_digits3]

/-- The temperature in the digits of the raw code (R84, R85). -/
theorem temperatureC_telemetryOf_frameRecord_digits :
    (telemetryOf (frameRecord aux F)).temperatureC =
      (((256 * (digit F 13).toNat + 16 * (digit F 12).toNat + (digit F 10).toNat : Nat) : Rat) - 400) / 10 := by
  rw [temperatureC_telemetryOf_frameRecord, tempRaw, toNat_digits3]

/-- The reported validity is the check of the frame's nine bytes. -/
theorem checksumValid_telemetryOf_frameRecord_iff :
    (telemetryOf (frameRecord aux F)).checksumValid = true ↔ xorCheck (frameBytes F) = .ok true := by
  rw [telemetryOf_checksumValid, frameRecord_chkOk, xorCheck_frameBytes, Except.ok.injEq]

end

/-- Settles O52: `res_code` is NONE without a result and LENERR under a length error; after DECODE the record is that of
the decode function, and the view its widening. -/
theorem consumerReadsOnlyDecodedFrames : Obligations.ConsumerReadsOnlyDecodedFrames := by
  refine ⟨fun s => Or.rec telemetry_of_not_have telemetry_of_errLen, fun s bits hcapt => ?_⟩
  refine ⟨_, decodeAgreesWithTheDecodeFunction s bits hcapt, fun hdec => ?_, fun F hdec => ?_⟩
  · exact telemetry_of_errLen (by rw [hdec]; rfl)
  · rw [hdec, recordOf]
    exact ⟨_, telemetry_of_frame rfl rfl, rfl, rfl, rfl, toNat_airGapCm_telemetryOf_frameRecord _ F, rfl,
      temperatureC_telemetryOf_frameRecord_digits _ F, rfl, rfl, rfl, checksumValid_telemetryOf_frameRecord_iff _ F⟩

/-! The sync flag and the checksum's verdict. -/

/-- The block of 68 received bits that stand in `cap`. -/
def received68 (cap : Capture) : State := { State.reset with cap := cap, cnt := 68#8 }

/-- Its DECODE reports the sync flag and the verdict of the rebuilt frame. -/
theorem exec_decode_received68 (cap : Capture) :
    ∃ t, exec .decode (received68 cap) = .next t ∧ t.res.syncOk = syncOk (rebuiltFrame .v68 cap) ∧
      resCode t = if chkOk (rebuiltFrame .v68 cap) then .ok else .chkbad :=
  ⟨_, exec_decode _, rfl, rfl⟩

/-- Settles O51 by four transmissions of zeros but for the digit 1 (`f` completes the sync byte) and the last two digits
(the checksum `a0` or `af`, its nibbles reversed in the capture). -/
theorem syncFlagIsOrthogonalToTheChecksum : Obligations.SyncFlagIsOrthogonalToTheChecksum := by
  refine ⟨⟨received68 0x50#68, ?_⟩, ⟨received68 0#68, ?_⟩, ⟨received68 0xF000000000000005F#68, ?_⟩,
    ⟨received68 0xF0000000000000000#68, ?_⟩⟩
  all_goals
    obtain ⟨t, hexec, hsync, hcode⟩ := exec_decode_received68 _
    refine ⟨t, hexec, hsync.trans ?_, hcode.trans ?_⟩ <;> decide

end Sys2Proof.Proofs
end
